-- ==== Sys2Proof/Word.lean ====
section
/-! DEFINITION. The two value types of the machine (00_scope.md R4: `XLEN_DATA` is 8, `XLEN_ADDR` is 16). -/

namespace Sys2Proof

/-- A memory byte, an opcode, an operand, or the contents of A, X or Y. -/
abbrev Byte := BitVec 8

/-- A memory address, or the contents of PC or SP. -/
abbrev Word := BitVec 16

end Sys2Proof
end

