-- ==== Sys2Proof/Config.lean ====
section
/-! DEFINITION. What is fixed for the machine (00_scope.md R4): the open parameters, the two constants decided by the
spec, and the one value the spec leaves unspecified. -/

namespace Sys2Proof

/-- The OPEN parameters of 00_scope.md R4: the three bound opcode bytes and `CYC_W`, the width of the cycle counter. -/
structure Params where
  opcLdaIm : Byte
  opcLdaZp : Byte
  opcLdaZpx : Byte
  cycW : Nat
deriving DecidableEq, Repr

/-- What R4 asks of the parameters: the opcodes pairwise distinct, the counter at least 4 bits wide. -/
abbrev Params.Ok (p : Params) : Prop :=
  p.opcLdaIm ≠ p.opcLdaZp ∧ p.opcLdaIm ≠ p.opcLdaZpx ∧ p.opcLdaZp ≠ p.opcLdaZpx ∧ 4 ≤ p.cycW

/-- The largest value of a two's-complement counter of `CYC_W` bits, `2^(CYC_W-1) - 1` (40_fetch_execute.md R75). -/
def Params.cycMax (p : Params) : Int := 2 ^ (p.cycW - 1) - 1

/-- The least value of a two's-complement counter of `CYC_W` bits. -/
def Params.cycMin (p : Params) : Int := -(2 ^ (p.cycW - 1))

/-- The defaults of R4. PRESUMED: the opcode bytes are `[from general knowledge, not in source]` (log 1). DESIGN CHOICE:
32 bits of counter, the spec's own default (log 5). Unsafe for a claim that rests on these very values. -/
def Config.params : Params := { opcLdaIm := 0xA9, opcLdaZp := 0xA5, opcLdaZpx := 0xB5, cycW := 32 }

/-- `RESET_VECTOR`, the value PC takes at `Reset` (R4, 10_state.md R12). UNVERIFIED: the spec's decision D2 (log 2). Unsafe. -/
def Config.resetVector : Word := 0xFFFC

/-- `SP_RESET`, the value SP takes at `Reset` (R4, 10_state.md R13). UNVERIFIED: the spec's decision D3 (log 3). Unsafe. -/
def Config.spReset : Word := 0x0100

/-- The FREE VALUE that `CYC` holds after a `Reset` transaction (10_state.md R20: unspecified until the next `Execute`;
93_implementation_defined.md P4). It has no body, so nothing can be proved of it (log 7). Safe. -/
opaque Config.cycAfterReset : Int

end Sys2Proof
end

