-- ==== Sys2Proof/Machine/State.lean ====
section
/-! DEFINITION. The state of the machine (10_state.md R10), the host's transactions (42_blocks_and_host_interface.md R103),
why a step can stop, and the state right after reset. -/

namespace Sys2Proof.Machine

/-- The run state `RUN` (10_state.md R21). -/
inductive RunState where
  /-- No `Reset` has happened yet (R23). -/
  | unreset
  /-- A `Reset` or an `Execute` has completed and the core waits for the host. -/
  | idle
  /-- An `Execute` is in progress. -/
  | running
deriving DecidableEq, Repr

/-- The 16-bit registers (R12, R13). -/
inductive Reg16 where
  | pc
  | sp
deriving DecidableEq, Repr

/-- The 8-bit registers (R11, R14). -/
inductive Reg8 where
  | a
  | x
  | y
deriving DecidableEq, Repr

/-- The seven status flags (R15): Carry, Zero, Interrupt-disable, Decimal, Break, Overflow, Negative. -/
inductive Flag where
  | c
  | z
  | i
  | d
  | b
  | v
  | n
deriving DecidableEq, Repr

/-- The twelve names the host can read or write (42 R103, R106). -/
inductive RegName where
  | wide (r : Reg16)
  | narrow (r : Reg8)
  | flag (f : Flag)
deriving DecidableEq, Repr

/-- One of the twelve with a value of its own width. -/
inductive RegValue where
  | wide (r : Reg16) (v : Word)
  | narrow (r : Reg8) (v : Byte)
  | flag (f : Flag) (v : Bool)
deriving DecidableEq, Repr

/-- A diagnostic event (10_state.md R24, 60_exceptions.md R118). UNVERIFIED: the payload is the spec's decision D12
(log 15). Safe: no step reads it. -/
inductive Diag where
  /-- An unknown opcode and the address it was fetched from. -/
  | unknownOpcode (op : Byte) (addr : Word)
deriving DecidableEq, Repr

/-- The host's six transactions (42 R103). -/
inductive Transaction where
  | reset
  | writeMem (addr : Word) (v : Byte)
  | readMem (addr : Word)
  | writeReg (rv : RegValue)
  | readReg (r : RegName)
  | execute (budget : Int)
deriving DecidableEq, Repr

/-- What a reading transaction answers (42 R107). -/
inductive Reply where
  | byte (addr : Word) (v : Byte)
  | reg (rv : RegValue)
deriving DecidableEq, Repr

/-- The second agent of 00_scope.md R5, as plain data. DESIGN CHOICE: the model's own (log 12). Safe: statements hold for
every script. -/
structure HostAgent where
  /-- The transactions the host has still to issue, oldest first. -/
  script : List Transaction
  /-- The answers it has received, oldest first; no step reads them. -/
  replies : List Reply
deriving DecidableEq, Repr

/-- The bytes of memory that differ from what an unlisted address reads as, by strictly rising address. -/
abbrev Memory := List Host.Cell

/-- The whole state (10_state.md R10). -/
structure State where
  /-- `PC` (R12). -/
  pc : Word
  /-- `SP` (R13). -/
  sp : Word
  /-- `A` (R11). -/
  a : Byte
  /-- `X` (R14). -/
  x : Byte
  /-- `Y` (R14). -/
  y : Byte
  /-- `C`, Carry (R15, R18). -/
  fC : Bool
  /-- `Z`, Zero (R15, R16). -/
  fZ : Bool
  /-- `I`, Interrupt-disable (R15, R18). -/
  fI : Bool
  /-- `D`, Decimal (R15, R18). -/
  fD : Bool
  /-- `B`, Break (R15, R18). -/
  fB : Bool
  /-- `V`, Overflow (R15, R18). -/
  fV : Bool
  /-- `N`, Negative (R15, R17). -/
  fN : Bool
  /-- `CYC`, the signed cycle counter (R19), as an exact integer. DEDUCED from 40_fetch_execute.md R73, which says the
  counter never wraps (log 4). Safe. -/
  cyc : Int
  /-- `RUN` (R21). -/
  run : RunState
  /-- `Mem` (R22, 20_memory.md R30). -/
  mem : Memory
  /-- `DIAG` (R24). -/
  diag : List Diag
  /-- The host. DESIGN CHOICE: the model's own (log 12). Safe. -/
  host : HostAgent
deriving DecidableEq, Repr

/-- Why the machine stops with a fault: there is no way, so the type has no constructor, no one raises a fault, and its
absence is safe or unsafe for no one. DEDUCED from 60_exceptions.md R117 and 20_memory.md R35, which say nothing can
fault (log 22). -/
inductive Fault where
deriving DecidableEq, Repr

/-- Why a step or a transaction has no meaning. -/
inductive Refusal where
  /-- An instruction without a meaning; raised by no arm of `exec` in this model. Safe. -/
  | notModelled (mnemonic : String)
  /-- Raised by `transact` for any transaction but `Reset` in `Unreset` (10_state.md R23, 42 R104). Safe. -/
  | beforeReset
  /-- Raised by `transact` for any transaction in `Running` (42 R104); no step asks for one there. Safe. -/
  | whileRunning
  /-- Raised by `transact` for an `Execute` whose budget exceeds `2^(CYC_W-1) - 1` (40_fetch_execute.md R75). Safe. -/
  | budgetTooLarge
deriving DecidableEq, Repr

/-- The machine right after reset (70_reset_and_hazards.md R135, R138). DESIGN CHOICE: `CYC`, to which the spec gives no
value, is 0 here (log 6). Unsafe: a claim about `CYC` at reset would lean on it. DESIGN CHOICE: the host has nothing to
do (log 12). Safe. -/
def State.reset : State where
  pc := Config.resetVector
  sp := Config.spReset
  a := 0
  x := 0
  y := 0
  fC := false
  fZ := false
  fI := false
  fD := false
  fB := false
  fV := false
  fN := false
  cyc := 0
  run := .idle
  mem := []
  diag := []
  host := { script := [], replies := [] }

end Sys2Proof.Machine
end

