-- ==== Sys2Proof/Machine/Ops.lean ====
section
/-! DEFINITION. The named operations: memory (20_memory.md), the fetch primitives and the cycle counter
(40_fetch_execute.md), and the one exceptional condition (60_exceptions.md). -/

namespace Sys2Proof.Machine

/-- What an address reads as while nothing is listed for it: `0x00`, the value `Initialise` leaves (20_memory.md R31). -/
def Memory.unlisted : Byte := 0x00

/-- The byte at an address (R32). -/
def Memory.read : Memory → Nat → Byte
  | [], _ => Memory.unlisted
  | (k, b) :: rest, addr => if k = addr then b else Memory.read rest addr

/-- A list of cells with the byte `v` in front for `addr`, unless `v` is what the address reads as unlisted. -/
def Memory.consCell (addr : Nat) (v : Byte) (rest : Memory) : Memory :=
  if v = Memory.unlisted then rest else (addr, v) :: rest

/-- Store one byte (R34), keeping the canonical form: the cell goes to its place by address, and storing the unlisted
value removes it. -/
def Memory.write : Memory → Nat → Byte → Memory
  | [], addr, v => Memory.consCell addr v []
  | (k, b) :: rest, addr, v =>
    if addr < k then Memory.consCell addr v ((k, b) :: rest)
    else if addr = k then Memory.consCell addr v rest
    else (k, b) :: Memory.write rest addr v

/-- The canonical form: addresses below 65,536 (R30) and strictly rising, and no cell equal to the unlisted value. -/
def Memory.wf : Memory → Bool
  | [] => true
  | (k, b) :: rest =>
    decide (k < 65536) && (b != Memory.unlisted) && rest.all (fun c => decide (k < c.1)) && Memory.wf rest

/-- `MemRead(addr, 1)` (R32): every address is valid (R35) and a read changes nothing (R33). -/
def State.memRead (s : State) (addr : Word) : Byte := Memory.read s.mem addr.toNat

/-- `MemWrite(addr, 1, v)` (R34): no instruction uses it. -/
def State.memWrite (s : State) (addr : Word) (v : Byte) : State :=
  { s with mem := Memory.write s.mem addr.toNat v }

/-- Store bytes at ascending addresses, modulo 2^16 (30_encoding.md R58). -/
def State.memWriteBytes (s : State) (addr : Word) : List Byte → State
  | [] => s
  | v :: rest => (s.memWrite addr v).memWriteBytes (addr + 1) rest

/-- `Charge(1)` (40_fetch_execute.md R70), and the decrement of every fetch and read (R72). -/
def State.charge (s : State) : State := { s with cyc := s.cyc - 1 }

/-- pc_increment (R66), modulo 2^16. UNVERIFIED: the wrap at `0xFFFF` is the spec's decision D7 (log 10). Unsafe. -/
def State.pcIncrement (s : State) : State := { s with pc := s.pc + 1 }

/-- The effect of one `FetchByte` (R65) on the state, whatever the byte is. -/
def State.passByte (s : State) : State := s.pcIncrement.charge

/-- `FetchByte()` (R65): the byte at PC, and the state after it. -/
def State.fetchByte (s : State) : Byte × State := (s.memRead s.pc, s.passByte)

/-- `ReadByte(addr)` (R67): PC is not touched. -/
def State.readByte (s : State) (addr : Word) : Byte × State := (s.memRead addr, s.charge)

/-- `FetchWord()` (R68): little-endian, two bytes fetched and charged one by one. UNVERIFIED: included by the spec's
decision D21 (log 19); no instruction calls it. Safe. -/
def State.fetchWord (s : State) : Word × State :=
  let lo := s.fetchByte
  let hi := lo.2.fetchByte
  (hi.1 ++ lo.1, hi.2)

/-- Write the accumulator (10_state.md R11). -/
def State.setA (s : State) (v : Byte) : State := { s with a := v }

/-- `raise UnknownOpcode(op, opaddr)` (60_exceptions.md R115, R118): one event, and nothing else; control goes on at the
next fetch (R116, R121). There is no trap entry to undo, so no return stands beside it (R122). -/
def State.raiseUnknownOpcode (s : State) (op : Byte) (opaddr : Word) : State :=
  { s with diag := s.diag ++ [.unknownOpcode op opaddr] }

/-- A `w`-bit two's-complement reading of an integer (00_scope.md R6). -/
def signedInBits (w : Nat) (v : Int) : Int := v.bmod (2 ^ w)

end Sys2Proof.Machine
end

