-- ==== Sys2Proof/Machine/Flags.lean ====
section
/-! DEFINITION. The status flags (10_state.md R15 to R18): the one computation of them, and access by name. -/

namespace Sys2Proof.Machine

/-- `SetZN()` (41_load_accumulator.md R85): Z and N from the new value of A, and nothing else. -/
def State.setZN (s : State) : State := { s with fZ := s.a == 0x00, fN := s.a.msb }

/-- Read a flag by name. -/
def State.flag (s : State) : Flag → Bool
  | .c => s.fC
  | .z => s.fZ
  | .i => s.fI
  | .d => s.fD
  | .b => s.fB
  | .v => s.fV
  | .n => s.fN

/-- Write a flag by name; writing one never changes another (R15). UNVERIFIED: seven one-bit cells and no packed byte is
the spec's decision D13 (log 16). Safe. -/
def State.setFlag (s : State) (f : Flag) (v : Bool) : State :=
  match f with
  | .c => { s with fC := v }
  | .z => { s with fZ := v }
  | .i => { s with fI := v }
  | .d => { s with fD := v }
  | .b => { s with fB := v }
  | .v => { s with fV := v }
  | .n => { s with fN := v }

end Sys2Proof.Machine
end

