-- ==== Sys2Proof/Machine/Operands.lean ====
section
/-! DEFINITION. The three addressing modes (30_encoding.md R55, 41_load_accumulator.md R89). The immediate mode has no
address: its operand byte is the datum. -/

namespace Sys2Proof.Machine

/-- `zext_16(v)` (00_scope.md R6). -/
def zext16 (v : Byte) : Word := v.setWidth 16

/-- The effective address of the zero-page mode, `{0x00, m}` (R89). -/
def eaZeroPage (m : Byte) : Word := zext16 m

/-- The index sum, taken in 8 bits with the carry out discarded (40_fetch_execute.md R71). -/
def indexSum (m x : Byte) : Byte := m + x

/-- The effective address of the zero-page mode indexed by X, `{0x00, (m + X)[7:0]}` (R89). -/
def eaZeroPageX (m x : Byte) : Word := zext16 (indexSum m x)

end Sys2Proof.Machine
end

