-- ==== Sys2Proof/Syntax.lean ====
section
/-! DEFINITION. The instructions (30_encoding.md R50, R53; one constructor per row of the opcode table), the selections of
the opcode decoder, and the two ways in which a list of bytes falls short of an instruction. -/

namespace Sys2Proof

/-- An instruction with its operand (R51, R55). -/
inductive Instr where
  /-- `LDA_IM`: the operand byte is the value to load (41_load_accumulator.md R86). -/
  | ldaIm (m : Byte)
  /-- `LDA_ZP`: the operand byte is a zero-page address (R87). -/
  | ldaZp (m : Byte)
  /-- `LDA_ZPX`: the operand byte is a zero-page base address, to which X is added (R88). -/
  | ldaZpx (m : Byte)
  /-- `UNK`: an unknown opcode, with its opcode byte and no operand (60_exceptions.md R115). -/
  | unk (op : Byte)
deriving DecidableEq, Repr

/-- The four selections of `Decode` (30_encoding.md R54); `unk` stands last, as R57 asks. -/
inductive Selection where
  | ldaIm
  | ldaZp
  | ldaZpx
  | unk
deriving DecidableEq, Repr

/-- Length in bytes of a selected instruction (R52). -/
def Selection.length : Selection → Nat
  | .ldaIm => 2
  | .ldaZp => 2
  | .ldaZpx => 2
  | .unk => 1

/-- Which selection of the decoder an instruction belongs to. -/
def Instr.selection : Instr → Selection
  | .ldaIm _ => .ldaIm
  | .ldaZp _ => .ldaZp
  | .ldaZpx _ => .ldaZpx
  | .unk _ => .unk

/-- Length in bytes of an instruction (R52). -/
def Instr.length (i : Instr) : Nat := i.selection.length

/-- Why a list of bytes holds no whole instruction. Every opcode byte has a meaning (R54), so these two are all. -/
inductive DecodeError where
  /-- The list is empty. -/
  | noOpcode
  /-- The list ends after the opcode byte of a two-byte instruction. -/
  | noOperand
deriving DecidableEq, Repr

end Sys2Proof
end

