-- ==== Sys2Proof/Machine/Load.lean ====
section
/-! DEFINITION. The three loads (41_load_accumulator.md R85 to R90). Each meaning is the WHOLE instruction: it starts with
PC at the opcode byte and passes the opcode and the operand byte itself (log 20). -/

namespace Sys2Proof.Machine

/-- The end of every load: A takes the datum, then Z and N describe it (R85). -/
def State.loadA (s : State) (v : Byte) : State := (s.setA v).setZN

/-- The end of a load from memory: one `ReadByte` at the effective address, then the load of A. -/
def State.loadAFrom (s : State) (ea : Word) : State := (s.readByte ea).2.loadA (s.readByte ea).1

/-- `LDA_IM` (R86). -/
def execLdaIm (m : Byte) (s : State) : Host.Outcome State Fault Refusal :=
  .next (s.passByte.passByte.loadA m)

/-- `LDA_ZP` (R87). -/
def execLdaZp (m : Byte) (s : State) : Host.Outcome State Fault Refusal :=
  .next (s.passByte.passByte.loadAFrom (eaZeroPage m))

/-- `LDA_ZPX` (R88). UNVERIFIED: the extra unit is charged between the operand fetch and the data read by the spec's
decision D19 (log 18). Safe. -/
def execLdaZpx (m : Byte) (s : State) : Host.Outcome State Fault Refusal :=
  .next (s.passByte.passByte.charge.loadAFrom (eaZeroPageX m s.x))

end Sys2Proof.Machine
end

