-- ==== Sys2Proof/Machine/Unknown.lean ====
section
/-! DEFINITION. The unknown opcode (60_exceptions.md R115 to R118): not a fault, but a report after which the next
instruction executes. -/

namespace Sys2Proof.Machine

/-- `UNK` (R115): the opcode's own fetch, then the diagnostic with the address it was fetched from. -/
def execUnk (op : Byte) (s : State) : Host.Outcome State Fault Refusal :=
  .next (s.passByte.raiseUnknownOpcode op s.pc)

end Sys2Proof.Machine
end

