-- ==== Sys2Proof/Machine/Dispatch.lean ====
section
/-! DEFINITION. One instruction run to its end (40_fetch_execute.md R77, R78): one arm per row of the opcode table. -/

namespace Sys2Proof.Machine

-- The case of StepInstr (R77). Exactly one arm runs (R78).
def exec (i : Instr) (s : State) : Host.Outcome State Fault Refusal :=
  match i with
  | .ldaIm m => Sys2Proof.Machine.execLdaIm m s
  | .ldaZp m => Sys2Proof.Machine.execLdaZp m s
  | .ldaZpx m => Sys2Proof.Machine.execLdaZpx m s
  | .unk op => Sys2Proof.Machine.execUnk op s

end Sys2Proof.Machine
end

