-- ==== Sys2Proof/WellFormed.lean ====
section
/-! DEFINITION. Which terms of `Instr` stand for an instruction of the machine. -/

namespace Sys2Proof

/-- The byte is none of the three bound opcodes (30_encoding.md R56). -/
def Params.isUnbound (p : Params) (op : Byte) : Bool :=
  op != p.opcLdaIm && op != p.opcLdaZp && op != p.opcLdaZpx

/-- Every operand byte is legal in a load (R55); an unknown opcode is a byte that no handler is bound to (R56). -/
def Instr.wf (p : Params) : Instr → Bool
  | .ldaIm _ => true
  | .ldaZp _ => true
  | .ldaZpx _ => true
  | .unk op => p.isUnbound op

end Sys2Proof
end

