-- ==== Sys2Proof/Decode.lean ====
section
/-! DEFINITION. The opcode decoder (30_encoding.md R50 to R58) and the encoder, both over the open opcode parameters. -/

namespace Sys2Proof

/-- `Decode` (R54): total on opcode bytes, and a function of the opcode byte alone. -/
def decodeOpcode (p : Params) (op : Byte) : Selection :=
  if op = p.opcLdaIm then .ldaIm
  else if op = p.opcLdaZp then .ldaZp
  else if op = p.opcLdaZpx then .ldaZpx
  else .unk

/-- The instruction whose opcode byte is `op`, where `next` is the byte at the following address (R51, R58). An unknown
opcode has no operand and ignores `next` (R50). -/
def instrOfBytes (p : Params) (op next : Byte) : Instr :=
  match decodeOpcode p op with
  | .ldaIm => .ldaIm next
  | .ldaZp => .ldaZp next
  | .ldaZpx => .ldaZpx next
  | .unk => .unk op

/-- Read one instruction from the front of a list of bytes in ascending address order (R50, R52): the instruction and
the bytes after it, or why there is none. -/
def decode (p : Params) : List Byte → Except DecodeError (Instr × List Byte)
  | [] => .error .noOpcode
  | op :: rest =>
    match decodeOpcode p op, rest with
    | .unk, bytes => .ok (.unk op, bytes)
    | .ldaIm, m :: bytes => .ok (.ldaIm m, bytes)
    | .ldaZp, m :: bytes => .ok (.ldaZp m, bytes)
    | .ldaZpx, m :: bytes => .ok (.ldaZpx m, bytes)
    | .ldaIm, [] => .error .noOperand
    | .ldaZp, [] => .error .noOperand
    | .ldaZpx, [] => .error .noOperand

/-- The bytes of an instruction in ascending address order (R51, R53, R56). -/
def encode (p : Params) : Instr → List Byte
  | .ldaIm m => [p.opcLdaIm, m]
  | .ldaZp m => [p.opcLdaZp, m]
  | .ldaZpx m => [p.opcLdaZpx, m]
  | .unk op => [op]

/-- The two bytes of a table word of `nbits` bits, first the opcode (bits 7:0), then the operand (bits 15:8); the bits
above `nbits` are zero. Two bytes is the longest instruction (R50). -/
def tableWordBytes (nbits w : Nat) : List Byte :=
  [BitVec.ofNat 8 (w % 2 ^ nbits), BitVec.ofNat 8 (w % 2 ^ nbits / 256)]

/-- The instruction the decoder reads, at the default parameters, from a word numbered as the opcode table numbers it. -/
def decodeTableWord (nbits w : Nat) : Option Instr :=
  match decode Config.params (tableWordBytes nbits w) with
  | .ok (i, _) => some i
  | .error _ => none

end Sys2Proof
end

