-- ==== Sys2Proof/Machine/Fetch.lean ====
section
/-! DEFINITION. Which instruction stands at PC, and placing one there. -/

namespace Sys2Proof.Machine

/-- The bytes from PC on, as many as the longest instruction has (30_encoding.md R50, R58). -/
def State.bytesAtPc (s : State) : List Byte := [s.memRead s.pc, s.memRead (s.pc + 1)]

/-- The instruction at PC: the opcode byte at PC, the operand byte at `(PC + 1) mod 2^16` (R54, R58). -/
def State.instrAtPc (p : Params) (s : State) : Instr := instrOfBytes p (s.memRead s.pc) (s.memRead (s.pc + 1))

/-- A budget from which one instruction of any cost runs (40_fetch_execute.md R83). -/
def oneInstructionBudget : Int := 4

/-- The state in which the very next step runs the instruction at PC: an `Execute` in progress with budget left (R76).
A budget that is already positive is kept (log 21). -/
def State.readyToRun (s : State) : State :=
  { s with run := .running, cyc := if 0 < s.cyc then s.cyc else oneInstructionBudget }

/-- Place the bytes of a table word at PC and make the machine ready to run them. -/
def State.placeTableWord (s : State) (nbits w : Nat) : State :=
  (s.memWriteBytes s.pc (tableWordBytes nbits w)).readyToRun

end Sys2Proof.Machine
end

