-- ==== Sys2Proof/Machine/HostAgent.lean ====
section
/-! DEFINITION. The host's six transactions (42_blocks_and_host_interface.md R103 to R107), `Reset`
(70_reset_and_hazards.md R135), and entry to and return from `Execute` (40_fetch_execute.md R75, R76). -/

namespace Sys2Proof.Machine

/-- Why a run state turns a transaction away, if it does (42 R104): in `Unreset` only `Reset` is accepted, in `Idle` all
six, in `Running` none. UNVERIFIED: refusing before the first `Reset` is the spec's decision D11 (log 14). Safe. -/
def turnedAway : RunState → Transaction → Option Refusal
  | .unreset, .reset => none
  | .unreset, _ => some .beforeReset
  | .idle, _ => none
  | .running, _ => some .whileRunning

/-- `Reset()` (70 R135): the state right after reset, whatever came before (R136). `CYC` gets no value of the spec's:
it holds a free value of `CYC_W` bits (10_state.md R20, log 7). The host is no part of the machine and stays. -/
def State.resetMachine (p : Params) (s : State) : State :=
  { State.reset with cyc := signedInBits p.cycW Config.cycAfterReset, host := s.host }

/-- `HostReadReg(r)` (42 R107). -/
def State.readReg (s : State) : RegName → RegValue
  | .wide .pc => .wide .pc s.pc
  | .wide .sp => .wide .sp s.sp
  | .narrow .a => .narrow .a s.a
  | .narrow .x => .narrow .x s.x
  | .narrow .y => .narrow .y s.y
  | .flag f => .flag f (s.flag f)

/-- `HostWriteReg(r, v)` (42 R106): one register or flag and nothing else. UNVERIFIED: that every register and flag may
be written is the spec's decision D10 (log 13). Safe. -/
def State.writeReg (s : State) : RegValue → State
  | .wide .pc v => { s with pc := v }
  | .wide .sp v => { s with sp := v }
  | .narrow .a v => { s with a := v }
  | .narrow .x v => { s with x := v }
  | .narrow .y v => { s with y := v }
  | .flag f v => s.setFlag f v

/-- The name a value is for. -/
def RegValue.name : RegValue → RegName
  | .wide r _ => .wide r
  | .narrow r _ => .narrow r
  | .flag f _ => .flag f

/-- Entry to `Execute(budget)` (40 R75): the previous value of `CYC` is discarded. -/
def State.enterExecute (s : State) (budget : Int) : State := { s with run := .running, cyc := budget }

/-- The loop test failed: `Execute` returns (40 R76). `CYC` keeps its value (10_state.md R20). -/
def State.leaveExecute (s : State) : State := { s with run := .idle }

/-- The loop test `CYC > 0`, signed, made between instructions (40 R76). -/
def State.budgetLeft (s : State) : Bool := decide (0 < s.cyc)

/-- The answer of a reading transaction reaches the host (42 R107). -/
def State.reply (s : State) (r : Reply) : State := { s with host := { s.host with replies := s.host.replies ++ [r] } }

/-- The effect of an accepted transaction (42 R103). UNVERIFIED: refusing an unrepresentable budget is the spec's decision
D6 (log 9). Safe. -/
def State.perform (p : Params) (s : State) : Transaction → Host.Outcome State Fault Refusal
  | .reset => .next (s.resetMachine p)
  | .writeMem addr v => .next (s.memWrite addr v)
  | .readMem addr => .next (s.reply (.byte addr (s.memRead addr)))
  | .writeReg rv => .next (s.writeReg rv)
  | .readReg r => .next (s.reply (.reg (s.readReg r)))
  | .execute budget => if p.cycMax < budget then .refused .budgetTooLarge else .next (s.enterExecute budget)

/-- A transaction: performed where the run state accepts it, refused by name where not (42 R104). -/
def State.transact (p : Params) (t : Transaction) (s : State) : Host.Outcome State Fault Refusal :=
  match turnedAway s.run t with
  | none => s.perform p t
  | some r => .refused r

/-- The host with the transactions `rest` still to issue. -/
def State.withScript (s : State) (rest : List Transaction) : State := { s with host := { s.host with script := rest } }

/-- The host's move: the transaction at the head of its script. With an empty script nothing happens: the core waits for
the host (10_state.md R21; log 12). -/
def State.hostTurn (p : Params) (s : State) : Host.Outcome State Fault Refusal :=
  match s.host.script with
  | [] => .next s
  | t :: rest => State.transact p t (s.withScript rest)

end Sys2Proof.Machine
end

