-- ==== Sys2Proof/Machine/Step.lean ====
section
/-! DEFINITION. One step of the machine: while `Running`, one whole instruction or the return of `Execute`
(40_fetch_execute.md R76, R77); otherwise one move of the host (00_scope.md R5). -/

namespace Sys2Proof.Machine

/-- One step, for any values of the open parameters. UNVERIFIED: one whole instruction as the atomic step is the spec's
decision D8 (log 11), the signed counter with overshoot its decision D4 (log 8). Unsafe for D4. -/
def stepWith (p : Params) (s : State) : Host.Outcome State Fault Refusal :=
  match s.run with
  | .running => if s.budgetLeft then exec (s.instrAtPc p) s else .next s.leaveExecute
  | .unreset => s.hostTurn p
  | .idle => s.hostTurn p

/-- One step at the default parameters. -/
def step (s : State) : Host.Outcome State Fault Refusal := stepWith Config.params s

/-- `s` with an instruction of the opcode table where the next step fetches it, and an `Execute` in progress (log 21). -/
def State.withFetchWord (s : State) (nbits w : Nat) : State := s.placeTableWord nbits w

end Sys2Proof.Machine
end

