-- ==== Sys2Proof/Machine/Pseudocode.lean ====
section
/-! DEFINITION. The spec's own pseudocode of the running core, statement by statement, as plain functions of the state:
`StepInstr` and `Execute` (40_fetch_execute.md R76, R77) and the handlers (41_load_accumulator.md R86 to R88), in which
each byte comes from a `FetchByte` of its own. It exists to be compared with `step`, which reads the instruction first and
then executes it. -/

namespace Sys2Proof.Machine

/-- `ExecLdaIm()` (R86), entered after the opcode fetch. -/
def State.handleLdaIm (s : State) : State :=
  let m := s.fetchByte
  (m.2.setA m.1).setZN

/-- `ExecLdaZp()` (R87), entered after the opcode fetch. -/
def State.handleLdaZp (s : State) : State :=
  let m := s.fetchByte
  let v := m.2.readByte (eaZeroPage m.1)
  (v.2.setA v.1).setZN

/-- `ExecLdaZpx()` (R88), entered after the opcode fetch. -/
def State.handleLdaZpx (s : State) : State :=
  let m := s.fetchByte
  let sum := indexSum m.1 m.2.x
  let charged := m.2.charge
  let v := charged.readByte (zext16 sum)
  (v.2.setA v.1).setZN

/-- `StepInstr()` (R77). -/
def State.stepInstr (p : Params) (s : State) : State :=
  let opaddr := s.pc
  let op := s.fetchByte
  match decodeOpcode p op.1 with
  | .ldaIm => op.2.handleLdaIm
  | .ldaZp => op.2.handleLdaZp
  | .ldaZpx => op.2.handleLdaZpx
  | .unk => op.2.raiseUnknownOpcode op.1 opaddr

/-- The loop of `Execute` (R76), on fuel: `while CYC > 0 do StepInstr()`. -/
def State.executeLoop (p : Params) : Nat → State → State
  | 0, s => s
  | fuel + 1, s => if 0 < s.cyc then State.executeLoop p fuel (s.stepInstr p) else s

/-- `Execute(budget)` (R76) for an accepted budget. Every iteration lowers `CYC` by at least one (R80), so the budget
itself is fuel enough. -/
def State.executeWhole (p : Params) (budget : Int) (s : State) : State :=
  (State.executeLoop p budget.toNat (s.enterExecute budget)).leaveExecute

end Sys2Proof.Machine
end

