-- ==== Sys2Proof/Safety.lean ====
section
/-! DEFINITION. The terms in which statements are made: runs of many steps, the invariant of the machine, what the running
core leaves alone, and the cost of an instruction. -/

namespace Sys2Proof.Machine

/-- The state of an outcome that has one. -/
def nextState? : Host.Outcome State Fault Refusal → Option State
  | .next s => some s
  | .fault _ => none
  | .refused _ => none

/-- The refusal of an outcome that is one. -/
def refusal? : Host.Outcome State Fault Refusal → Option Refusal
  | .next _ => none
  | .fault _ => none
  | .refused r => some r

/-- `k` steps in a row, stopping where one stops. -/
def stepsWith (p : Params) : Nat → State → Host.Outcome State Fault Refusal
  | 0, s => .next s
  | k + 1, s =>
    match stepWith p s with
    | .next t => stepsWith p k t
    | .fault f => .fault f
    | .refused r => .refused r

/-- The cost of an instruction in units of `CYC`, opcode fetch included: the column "total" of 40_fetch_execute.md R83. -/
def instrCost : Instr → Nat
  | .ldaIm _ => 2
  | .ldaZp _ => 3
  | .ldaZpx _ => 4
  | .unk _ => 1

/-- The invariant of the machine: memory is in its canonical form, and a running counter does not exceed the largest
value of `CYC_W` bits (40 R73, R75). -/
def MachineInv (p : Params) (s : State) : Prop :=
  Memory.wf s.mem = true ∧ (s.run = .running → s.cyc ≤ p.cycMax)

/-- The counter holds a value of `CYC_W` bits. -/
def CycFits (p : Params) (s : State) : Prop := p.cycMin ≤ s.cyc ∧ s.cyc ≤ p.cycMax

/-- The host asks for no budget below the least value of `CYC_W` bits. -/
def BudgetsFit (p : Params) (s : State) : Prop :=
  ∀ b : Int, Transaction.execute b ∈ s.host.script → p.cycMin ≤ b

/-- What no instruction writes (10_state.md R13, R14, R18, 20_memory.md R34, 70_reset_and_hazards.md R145): SP, X, Y, the
five inert flags, and every byte of memory. -/
def SameHostOnly (s t : State) : Prop :=
  t.sp = s.sp ∧ t.x = s.x ∧ t.y = s.y ∧ t.fC = s.fC ∧ t.fI = s.fI ∧ t.fD = s.fD ∧ t.fB = s.fB ∧ t.fV = s.fV ∧
    ∀ addr : Word, t.memRead addr = s.memRead addr

/-- A state without the two traces that no step reads, `DIAG` and the host's replies. -/
def State.withoutTraces (s : State) : State := { s with diag := [], host := { s.host with replies := [] } }

/-- An outcome without the two traces. -/
def withoutTraces : Host.Outcome State Fault Refusal → Host.Outcome State Fault Refusal
  | .next s => .next s.withoutTraces
  | .fault f => .fault f
  | .refused r => .refused r

end Sys2Proof.Machine
end

