-- ==== Sys2Proof/Certificates/Slice0/Obligations.lean ====
section
/-! DEFINITION. The statements for the provers, each about the machine and none about a program. Statements about `stepWith`
hold for every value of the open parameters, `step` being `stepWith` at the defaults. -/

open Sys2Proof Sys2Proof.Machine

/-! ### Encoding -/

/-- Decoding the bytes of a well-formed instruction gives it back, with every operand at every value, and leaves the bytes
after it (30_encoding.md R51, R53, R54, R56). -/
def Obligations.DecodeAfterEncode : Prop :=
  ∀ p : Params, p.Ok → ∀ (i : Instr) (rest : List Byte), i.wf p = true →
    decode p (encode p i ++ rest) = .ok (i, rest)

/-- Whatever bytes an instruction is read from are its encoding, and what is read is well formed: each byte string has one
meaning (30_encoding.md R51, R54, R56). -/
def Obligations.EncodeAfterDecode : Prop :=
  ∀ (p : Params) (bytes rest : List Byte) (i : Instr), decode p bytes = .ok (i, rest) →
    encode p i ++ rest = bytes ∧ i.wf p = true

/-- Words written out from the encodings of 30_encoding.md R51 and R53 at the default opcodes, operand above opcode, decode
to what they stand for. The opcode values are the model's, taken from outside the source (log 1). -/
def Obligations.SpecWordsDecode : Prop :=
  decodeTableWord 16 0b0011011110101001 = some (.ldaIm 0x37) ∧
    decodeTableWord 16 0b0100001010100101 = some (.ldaZp 0x42) ∧
    decodeTableWord 16 0b1111000010110101 = some (.ldaZpx 0xF0) ∧
    decodeTableWord 8 0b00000000 = some (.unk 0x00) ∧
    decodeTableWord 8 0b10101000 = some (.unk 0xA8)

/-- `Decode` selects by the opcode byte alone, and the order of its tests does not matter (30_encoding.md R54); the
instruction at PC is selected by the byte at PC. -/
def Obligations.DecodeSelectsByOpcode : Prop :=
  (∀ p : Params, p.Ok → ∀ op : Byte,
    (decodeOpcode p op = .ldaIm ↔ op = p.opcLdaIm) ∧
    (decodeOpcode p op = .ldaZp ↔ op = p.opcLdaZp) ∧
    (decodeOpcode p op = .ldaZpx ↔ op = p.opcLdaZpx) ∧
    (decodeOpcode p op = .unk ↔ op ≠ p.opcLdaIm ∧ op ≠ p.opcLdaZp ∧ op ≠ p.opcLdaZpx)) ∧
  ∀ (p : Params) (s : State), (s.instrAtPc p).selection = decodeOpcode p (s.memRead s.pc)

/-- The decoder learns the length from the opcode byte alone: 2 for the three bound opcodes, 1 otherwise, and a two-byte
instruction is refused by name only where its operand byte is missing (30_encoding.md R50, R52). -/
def Obligations.LengthFromOpcodeAlone : Prop :=
  ∀ (p : Params) (op : Byte) (rest : List Byte),
    ((op = p.opcLdaIm ∨ op = p.opcLdaZp ∨ op = p.opcLdaZpx) → rest = [] → decode p (op :: rest) = .error .noOperand) ∧
    ((op = p.opcLdaIm ∨ op = p.opcLdaZp ∨ op = p.opcLdaZpx) → rest ≠ [] →
      ∃ i, decode p (op :: rest) = .ok (i, rest.drop 1) ∧ i.length = 2) ∧
    (¬(op = p.opcLdaIm ∨ op = p.opcLdaZp ∨ op = p.opcLdaZpx) →
      ∃ i, decode p (op :: rest) = .ok (i, rest) ∧ i.length = 1)

/-- For every choice of three distinct opcodes, exactly 253 of the 256 bytes are unknown opcodes (30_encoding.md R56). -/
def Obligations.UnknownOpcodesNumber253 : Prop :=
  ∀ p : Params, p.Ok →
    (Finset.univ.filter fun k : Fin 256 => decodeOpcode p (BitVec.ofFin k) = .unk).card = 253

/-! ### Memory -/

/-- Two memories in canonical form that read alike at all 65,536 addresses are the same data: the form leaves one way to
write a memory down (20_memory.md R30, R31). -/
def Obligations.CanonicalMemoryIsUnique : Prop :=
  ∀ m₁ m₂ : Memory, Memory.wf m₁ = true → Memory.wf m₂ = true →
    (∀ addr : Nat, addr < 65536 → Memory.read m₁ addr = Memory.read m₂ addr) → m₁ = m₂

/-- `MemWrite` changes the one byte and nothing else, and no instruction writes memory (20_memory.md R34). -/
def Obligations.MemWriteStoresOneByte : Prop :=
  (∀ (s : State) (addr : Word) (v : Byte), Memory.wf s.mem = true →
    (s.memWrite addr v).memRead addr = v ∧
    (∀ other : Word, other ≠ addr → (s.memWrite addr v).memRead other = s.memRead other) ∧
    s.memWrite addr v = { s with mem := (s.memWrite addr v).mem }) ∧
  ∀ (i : Instr) (s : State), ∃ t, exec i s = .next t ∧ ∀ addr : Word, t.memRead addr = s.memRead addr

/-- A byte of memory changes in a step only where the step is a `Reset` or a `HostWriteMem` to that address
(20_memory.md R31, R34). -/
def Obligations.MemoryChangesOnlyByHost : Prop :=
  ∀ (p : Params) (s t : State), stepWith p s = .next t → ∀ addr : Word, t.memRead addr ≠ s.memRead addr →
    s.run ≠ .running ∧ ∃ rest, s.host.script = .reset :: rest ∨ ∃ v, s.host.script = .writeMem addr v :: rest

/-! ### The fetch primitives and the counter -/

/-- `FetchByte` (40_fetch_execute.md R65) returns the byte at PC, adds one to PC modulo 2^16 and takes one from CYC, and
changes nothing else. The wrap at the top is the spec's decision D7 (log 10). -/
def Obligations.FetchByteEffect : Prop :=
  ∀ s : State, s.fetchByte.1 = s.memRead s.pc ∧
    s.fetchByte.2 = { s with pc := BitVec.ofNat 16 (s.pc.toNat + 1), cyc := s.cyc - 1 }

/-- `ReadByte` (R67) returns the byte at the address, takes one from CYC and writes nothing else; PC is not advanced. -/
def Obligations.ReadByteEffect : Prop :=
  ∀ (s : State) (addr : Word), s.readByte addr = (s.memRead addr, { s with cyc := s.cyc - 1 })

/-- `FetchWord` (R68, 20_memory.md R37): the byte at PC is bits 7:0, the byte after it bits 15:8; PC advances by 2 modulo
2^16, CYC falls by 2. No instruction calls it (the spec's decision D21, log 19). -/
def Obligations.FetchWordLittleEndian : Prop :=
  ∀ s : State,
    s.fetchWord.1.toNat = (s.memRead s.pc).toNat + 256 * (s.memRead (BitVec.ofNat 16 (s.pc.toNat + 1))).toNat ∧
    s.fetchWord.2 = { s with pc := BitVec.ofNat 16 (s.pc.toNat + 2), cyc := s.cyc - 2 }

/-- The whole cost of each instruction, whatever the operand, X, the data and the address (R83). -/
def Obligations.InstructionCosts : Prop :=
  ∀ s : State,
    (∀ m : Byte, ∃ t, exec (.ldaIm m) s = .next t ∧ t.cyc = s.cyc - 2) ∧
    (∀ m : Byte, ∃ t, exec (.ldaZp m) s = .next t ∧ t.cyc = s.cyc - 3) ∧
    (∀ m : Byte, ∃ t, exec (.ldaZpx m) s = .next t ∧ t.cyc = s.cyc - 4) ∧
    ∀ op : Byte, ∃ t, exec (.unk op) s = .next t ∧ t.cyc = s.cyc - 1

/-- The integer counter is the two's-complement counter of `CYC_W` bits, for every admitted width: from a value that the
loop test lets through, the subtraction done in `CYC_W` bits gives the same value, never below -3 (R72, R73). That the
model holds `CYC` as an integer is its own choice (log 4); the signed reading is the spec's decision D4 (log 8). -/
def Obligations.CounterNeverWraps : Prop :=
  ∀ p : Params, p.Ok → ∀ s : State, s.run = .running → 0 < s.cyc → s.cyc ≤ p.cycMax →
    ∃ t, stepWith p s = .next t ∧ -3 ≤ t.cyc ∧ t.cyc < s.cyc ∧
      (BitVec.ofInt p.cycW s.cyc - BitVec.ofNat p.cycW (instrCost (s.instrAtPc p))).toInt = t.cyc

/-- No step takes the counter out of `CYC_W` bits, for every admitted width, as long as the host asks for no budget that
those bits cannot hold (R73; a budget above the range is refused, R75). -/
def Obligations.CounterStaysInItsWidth : Prop :=
  ∀ p : Params, p.Ok → ∀ s t : State, CycFits p s → BudgetsFit p s → stepWith p s = .next t →
    CycFits p t ∧ BudgetsFit p t

/-! ### The instructions -/

/-- `LDA_IM` (41_load_accumulator.md R86): as an instruction, and as a step wherever its two bytes stand at PC, across the
top of memory and with a budget of one as well. -/
def Obligations.LdaImLoadsItsOperand : Prop :=
  ∀ (m : Byte) (s : State),
    exec (.ldaIm m) s =
      .next { s with a := m, fZ := decide (m = 0x00), fN := m.getLsbD 7, pc := s.pc + 2, cyc := s.cyc - 2 } ∧
    ∀ p : Params, p.Ok → s.run = .running → 0 < s.cyc →
      s.memRead s.pc = p.opcLdaIm → s.memRead (s.pc + 1) = m →
      stepWith p s =
        .next { s with a := m, fZ := decide (m = 0x00), fN := m.getLsbD 7, pc := s.pc + 2, cyc := s.cyc - 2 }

/-- `LDA_ZP` (R87): the datum is the byte at `{0x00, m}`. -/
def Obligations.LdaZpLoadsFromPageZero : Prop :=
  ∀ (m : Byte) (s : State) (v : Byte), s.memRead (BitVec.ofNat 16 m.toNat) = v →
    exec (.ldaZp m) s =
      .next { s with a := v, fZ := decide (v = 0x00), fN := v.getLsbD 7, pc := s.pc + 2, cyc := s.cyc - 3 } ∧
    ∀ p : Params, p.Ok → s.run = .running → 0 < s.cyc →
      s.memRead s.pc = p.opcLdaZp → s.memRead (s.pc + 1) = m →
      stepWith p s =
        .next { s with a := v, fZ := decide (v = 0x00), fN := v.getLsbD 7, pc := s.pc + 2, cyc := s.cyc - 3 }

/-- `LDA_ZPX` (R88): the datum is the byte at `(m + X) mod 256`, never in page 1; X and C stay. -/
def Obligations.LdaZpxWrapsInPageZero : Prop :=
  ∀ (m : Byte) (s : State) (v : Byte), s.memRead (BitVec.ofNat 16 ((m.toNat + s.x.toNat) % 256)) = v →
    exec (.ldaZpx m) s =
      .next { s with a := v, fZ := decide (v = 0x00), fN := v.getLsbD 7, pc := s.pc + 2, cyc := s.cyc - 4 } ∧
    ∀ p : Params, p.Ok → s.run = .running → 0 < s.cyc →
      s.memRead s.pc = p.opcLdaZpx → s.memRead (s.pc + 1) = m →
      stepWith p s =
        .next { s with a := v, fZ := decide (v = 0x00), fN := v.getLsbD 7, pc := s.pc + 2, cyc := s.cyc - 4 }

/-- `UNK` (60_exceptions.md R115, R118): one event, PC + 1, CYC - 1, nothing else, for every byte no handler is bound to.
The event's contents are the spec's decision D12 (log 15). -/
def Obligations.UnkReportsAndGoesOn : Prop :=
  ∀ (op : Byte) (s : State),
    exec (.unk op) s =
      .next { s with pc := s.pc + 1, cyc := s.cyc - 1, diag := s.diag ++ [.unknownOpcode op s.pc] } ∧
    ∀ p : Params, s.run = .running → 0 < s.cyc → s.memRead s.pc = op →
      op ≠ p.opcLdaIm → op ≠ p.opcLdaZp → op ≠ p.opcLdaZpx →
      stepWith p s =
        .next { s with pc := s.pc + 1, cyc := s.cyc - 1, diag := s.diag ++ [.unknownOpcode op s.pc] }

/-- The unknown opcode is non-fatal (R116): one diagnostic is surfaced, and the state after it is an ordinary one, still
running, in which the byte after the unknown opcode is the next opcode and the instruction there executes if budget is
left. -/
def Obligations.UnkNeverEndsTheRun : Prop :=
  ∀ (p : Params) (s : State), s.run = .running → 0 < s.cyc → decodeOpcode p (s.memRead s.pc) = .unk →
    ∃ t, stepWith p s = .next t ∧ t.run = .running ∧ t.pc = s.pc + 1 ∧ t.diag.length = s.diag.length + 1 ∧
      (1 < s.cyc →
        stepWith p t = exec (instrOfBytes p (s.memRead (s.pc + 1)) (s.memRead (s.pc + 2))) t ∧
        ∃ u, stepWith p t = .next u)

/-- `SetZN` (41 R85): Z and N from A and nothing else; every load ends with it, after A is written, and an unknown opcode
never runs it. -/
def Obligations.ZeroAndNegativeDescribeA : Prop :=
  (∀ s : State, s.setZN = { s with fZ := decide (s.a = 0x00), fN := s.a.getLsbD 7 }) ∧
  (∀ (i : Instr) (s : State), i.selection ≠ .unk →
    ∃ t, exec i s = .next t ∧ t.fZ = decide (t.a = 0x00) ∧ t.fN = t.a.getLsbD 7 ∧
      t.fC = s.fC ∧ t.fV = s.fV ∧ t.fI = s.fI ∧ t.fD = s.fD ∧ t.fB = s.fB) ∧
  ∀ (op : Byte) (s : State), ∃ t, exec (.unk op) s = .next t ∧ t.fZ = s.fZ ∧ t.fN = s.fN

/-- The addressing modes (R89): the effective address of each, always in page 0, and the datum each mode gives the
accumulator, with the accesses it is charged for after the opcode fetch; no mode changes X. -/
def Obligations.AddressingModes : Prop :=
  (∀ m : Byte, (eaZeroPage m).toNat = m.toNat) ∧
  (∀ m x : Byte, (eaZeroPageX m x).toNat = (m.toNat + x.toNat) % 256) ∧
  ∀ (m : Byte) (s : State),
    (∃ t, exec (.ldaIm m) s = .next t ∧ t.a = m ∧ t.x = s.x ∧ t.cyc = s.cyc - 1 - 1) ∧
    (∃ t, exec (.ldaZp m) s = .next t ∧ t.a = s.memRead (eaZeroPage m) ∧ t.x = s.x ∧ t.cyc = s.cyc - 1 - 2) ∧
    ∃ t, exec (.ldaZpx m) s = .next t ∧ t.a = s.memRead (eaZeroPageX m s.x) ∧ t.x = s.x ∧ t.cyc = s.cyc - 1 - 3

/-- The frame of `LDA_IM`, `LDA_ZP` and `LDA_ZPX` (R86, R87, R88): only A, Z, N, PC and CYC may change; every other
register, flag and trace, the run state and every byte of memory stay. -/
def Obligations.LoadsFrame : Prop :=
  ∀ (i : Instr) (s t : State), i.selection ≠ .unk → exec i s = .next t →
    t.sp = s.sp ∧ t.x = s.x ∧ t.y = s.y ∧ t.fC = s.fC ∧ t.fI = s.fI ∧ t.fD = s.fD ∧ t.fB = s.fB ∧ t.fV = s.fV ∧
      t.run = s.run ∧ t.diag = s.diag ∧ t.host = s.host ∧ ∀ addr : Word, t.memRead addr = s.memRead addr

/-- The frame of `UNK` (60 R115): only PC, CYC and DIAG may change; A and all seven flags stay too. -/
def Obligations.UnkFrame : Prop :=
  ∀ (op : Byte) (s t : State), exec (.unk op) s = .next t →
    t.a = s.a ∧ t.x = s.x ∧ t.y = s.y ∧ t.sp = s.sp ∧ t.fC = s.fC ∧ t.fZ = s.fZ ∧ t.fI = s.fI ∧ t.fD = s.fD ∧
      t.fB = s.fB ∧ t.fV = s.fV ∧ t.fN = s.fN ∧ t.run = s.run ∧ t.host = s.host ∧
      ∀ addr : Word, t.memRead addr = s.memRead addr

/-- What no load does (41 R90): no load depends on anything but PC, X and memory: not on the old A, Z or N, not on Y, SP
or any flag; and none emits a diagnostic, or moves PC other than by its two fetches. -/
def Obligations.LoadsReadOnlyPcXAndMemory : Prop :=
  ∀ (i : Instr) (s₁ s₂ : State), i.selection ≠ .unk → s₁.pc = s₂.pc → s₁.x = s₂.x →
    (∀ addr : Word, s₁.memRead addr = s₂.memRead addr) →
    ∃ t₁ t₂, exec i s₁ = .next t₁ ∧ exec i s₂ = .next t₂ ∧
      t₁.a = t₂.a ∧ t₁.fZ = t₂.fZ ∧ t₁.fN = t₂.fN ∧ t₁.fZ = decide (t₁.a = 0x00) ∧ t₁.fN = t₁.a.getLsbD 7 ∧
      t₁.pc = s₁.pc + 2 ∧ t₂.pc = s₁.pc + 2 ∧ t₁.cyc - s₁.cyc = t₂.cyc - s₂.cyc ∧
      t₁.diag = s₁.diag ∧ SameHostOnly s₁ t₁

/-- Every instruction advances PC by its length modulo 2^16, so each begins where the last one ended
(10_state.md R12, 40 R81). -/
def Obligations.PcAdvancesByLength : Prop :=
  ∀ (i : Instr) (s : State), ∃ t, exec i s = .next t ∧ t.pc = BitVec.ofNat 16 (s.pc.toNat + i.length)

/-- C, I, D, B and V (10_state.md R18): no instruction writes one, none has any effect on an instruction, no step of a
running core changes one, and any step that changes one is a `Reset` or the host's write of that flag. -/
def Obligations.InertFlagsHaveNoEffect : Prop :=
  ∀ f : Flag, f = .c ∨ f = .i ∨ f = .d ∨ f = .b ∨ f = .v →
    (∀ (i : Instr) (s : State) (v : Bool),
      ∃ t, exec i s = .next t ∧ exec i (s.setFlag f v) = .next (t.setFlag f v) ∧ t.flag f = s.flag f) ∧
    (∀ (p : Params) (s : State), s.run = .running → ∃ t, stepWith p s = .next t ∧ t.flag f = s.flag f) ∧
    ∀ (p : Params) (s t : State), stepWith p s = .next t → t.flag f ≠ s.flag f →
      ∃ rest, s.host.script = .reset :: rest ∨ ∃ v, s.host.script = .writeReg (.flag f v) :: rest

/-! ### The step and the loop of `Execute` -/

/-- When the bytes at PC decode to an instruction, the step of a running core with budget left is exec of it at the same
state, with nothing around it; the bytes at PC always decode, to a well-formed instruction; and `step` is `stepWith` at the
defaults (40 R77, R78). -/
def Obligations.StepRunsTheDecodedInstruction : Prop :=
  (∀ (p : Params) (s : State) (i : Instr) (rest : List Byte), s.run = .running → 0 < s.cyc →
    decode p s.bytesAtPc = .ok (i, rest) → stepWith p s = exec i s) ∧
  (∀ (s : State) (i : Instr) (rest : List Byte), s.run = .running → 0 < s.cyc →
    decode Config.params s.bytesAtPc = .ok (i, rest) → Sys2Proof.Machine.step s = exec i s) ∧
  ∀ (p : Params) (s : State), ∃ i rest, decode p s.bytesAtPc = .ok (i, rest) ∧ i.wf p = true

/-- One step of a running core with budget left is the spec's own `StepInstr`, in which every opcode and operand byte comes
from a `FetchByte` (40 R65, R77; 41 R86, R87, R88). -/
def Obligations.StepIsThePseudocode : Prop :=
  ∀ (p : Params) (s : State), s.run = .running → 0 < s.cyc → stepWith p s = .next (s.stepInstr p)

/-- An accepted `Execute(budget)` of the host, run step by step, ends in the state the spec's own loop computes (40 R76). -/
def Obligations.ExecuteIsTheLoop : Prop :=
  ∀ (p : Params) (s : State) (budget : Int) (rest : List Transaction), s.run = .idle →
    s.host.script = .execute budget :: rest → budget ≤ p.cycMax →
    ∃ k, k ≤ budget.toNat + 2 ∧
      stepsWith p k s = .next ((s.withScript rest).executeWhole p budget)

/-- Every `Execute` with a positive budget ends, after at least a quarter of the budget and at most the whole of it in
instructions, with the counter between -3 and 0 (40 R76, R80). The first step is the entry, the last the return, and each of
the `n` between starts with budget left. -/
def Obligations.ExecuteTerminates : Prop :=
  ∀ p : Params, ∀ (s : State) (budget : Int) (rest : List Transaction), s.run = .idle →
    s.host.script = .execute budget :: rest → 1 ≤ budget → budget ≤ p.cycMax →
    ∃ n : Nat, budget ≤ 4 * n ∧ (n : Int) ≤ budget ∧
      (∀ j, 1 ≤ j → j ≤ n → ∃ u, stepsWith p j s = .next u ∧ u.run = .running ∧ 0 < u.cyc) ∧
      (∃ u, stepsWith p (n + 1) s = .next u ∧ u.run = .running ∧ u.cyc ≤ 0) ∧
      ∃ t, stepsWith p (n + 2) s = .next t ∧ t.run = .idle ∧ t.host.script = rest ∧ -3 ≤ t.cyc ∧ t.cyc ≤ 0

/-- Where the first `Execute` ends with no overshoot, it and a second one leave the very state that one `Execute` of the
budgets' sum leaves (40 R84). -/
def Obligations.SplitExecute : Prop :=
  ∀ (p : Params) (s : State) (b₁ b₂ : Int), 0 ≤ b₂ → (s.executeWhole p b₁).cyc = 0 →
    (s.executeWhole p b₁).executeWhole p b₂ = s.executeWhole p (b₁ + b₂)

/-- An `Execute` of a single load from any budget between one and its cost loads the datum, stops right after it and leaves
the overshoot in the counter (40 R76, R83; 41 R86, R87, R88). The overshoot is the spec's decision D4 (log 8). -/
def Obligations.ExecuteOfOneLoad : Prop :=
  ∀ p : Params, p.Ok → ∀ (s : State) (budget : Int) (m : Byte), 1 ≤ budget → s.memRead (s.pc + 1) = m →
    (s.memRead s.pc = p.opcLdaIm → budget ≤ 2 →
      (s.executeWhole p budget).a = m ∧ (s.executeWhole p budget).pc = s.pc + 2 ∧
        (s.executeWhole p budget).cyc = budget - 2) ∧
    (s.memRead s.pc = p.opcLdaZp → budget ≤ 3 →
      (s.executeWhole p budget).a = s.memRead (BitVec.ofNat 16 m.toNat) ∧ (s.executeWhole p budget).pc = s.pc + 2 ∧
        (s.executeWhole p budget).cyc = budget - 3) ∧
    (s.memRead s.pc = p.opcLdaZpx → budget ≤ 4 →
      (s.executeWhole p budget).a = s.memRead (BitVec.ofNat 16 ((m.toNat + s.x.toNat) % 256)) ∧
        (s.executeWhole p budget).pc = s.pc + 2 ∧ (s.executeWhole p budget).cyc = budget - 4)

/-- The exhausted budget is the only end of a run, and it is tested between instructions alone (40 R79): a running core with
budget left always completes an instruction and runs on, one without always returns and changes nothing but `RUN`. -/
def Obligations.OnlyTheBudgetEndsARun : Prop :=
  ∀ (p : Params) (s : State), s.run = .running →
    (0 < s.cyc → ∃ t, stepWith p s = .next t ∧ t.run = .running) ∧
    (s.cyc ≤ 0 → stepWith p s = .next { s with run := .idle })

/-- A budget of zero or less performs no iteration: two steps, entry and return, change nothing but `CYC`, which holds the
budget itself (40 R75, R76). The case is the spec's decision D6 (log 9). -/
def Obligations.ExecuteOfNothing : Prop :=
  ∀ (p : Params) (s : State) (budget : Int) (rest : List Transaction), s.run = .idle →
    s.host.script = .execute budget :: rest → budget ≤ 0 →
    stepsWith p 2 s = .next { s.withScript rest with cyc := budget }

/-- The run state changes in the ways 10_state.md R21 lists and in no other, and each of them happens. -/
def Obligations.RunStateTransitions : Prop :=
  (∀ (p : Params) (s t : State), stepWith p s = .next t →
    t.run = s.run ∨
    (s.run = .unreset ∧ t.run = .idle ∧ ∃ rest, s.host.script = .reset :: rest) ∨
    (s.run = .idle ∧ t.run = .running ∧ ∃ b rest, s.host.script = .execute b :: rest) ∨
    (s.run = .running ∧ t.run = .idle ∧ s.cyc ≤ 0)) ∧
  (∀ (p : Params) (s : State) (rest : List Transaction), s.run = .unreset ∨ s.run = .idle →
    s.host.script = .reset :: rest → ∃ t, stepWith p s = .next t ∧ t.run = .idle) ∧
  (∀ (p : Params) (s : State) (b : Int) (rest : List Transaction), s.run = .idle →
    s.host.script = .execute b :: rest → b ≤ p.cycMax → ∃ t, stepWith p s = .next t ∧ t.run = .running) ∧
  ∀ (p : Params) (s : State), s.run = .running → s.cyc ≤ 0 → ∃ t, stepWith p s = .next t ∧ t.run = .idle

/-! ### Invariants -/

/-- Every step keeps the invariant: memory in its canonical form, a running counter within the largest budget. -/
def Obligations.EveryStepKeepsInv : Prop :=
  (∀ (p : Params) (s t : State), MachineInv p s → stepWith p s = .next t → MachineInv p t) ∧
  ∀ s t : State, MachineInv Config.params s → Sys2Proof.Machine.step s = .next t → MachineInv Config.params t

/-- The invariant holds right after reset, and for every admitted width the counter there fits; the value 0 of CYC in
`State.reset` is the model's choice (log 6). -/
def Obligations.ResetMeetsInv : Prop :=
  ∀ p : Params, p.Ok → MachineInv p State.reset ∧ CycFits p State.reset ∧ BudgetsFit p State.reset

/-- X, Y, SP and the flags C, I, D, B, V change only by `Reset` and by the host's write of that very register or flag
(70_reset_and_hazards.md R145). -/
def Obligations.RegistersNoInstructionWrites : Prop :=
  ∀ (p : Params) (s t : State), stepWith p s = .next t →
    ∀ r ∈ [RegName.wide .sp, .narrow .x, .narrow .y, .flag .c, .flag .i, .flag .d, .flag .b, .flag .v],
      t.readReg r ≠ s.readReg r →
      s.run ≠ .running ∧
        ∃ rest, s.host.script = .reset :: rest ∨ ∃ rv, rv.name = r ∧ s.host.script = .writeReg rv :: rest

/-- No step reads `DIAG` or the host's replies: states that differ in them alone step to outcomes that differ in them alone
(10_state.md R24, 42_blocks_and_host_interface.md R110). Keeping them is the model's choice (logs 12, 15). -/
def Obligations.TracesDoNotInterfere : Prop :=
  ∀ (p : Params) (s t : State), s.withoutTraces = t.withoutTraces →
    Sys2Proof.Machine.withoutTraces (stepWith p s) = Sys2Proof.Machine.withoutTraces (stepWith p t)

/-! ### Reset and the host -/

/-- What `Reset` leaves, in either run state that accepts it (70 R135, R138): every register, flag and byte at its reset
value, DIAG empty, `RUN` idle. The values of PC and SP are the spec's decisions D2 and D3 (logs 2, 3); of CYC it is said
only that it fits (log 7). -/
def Obligations.ResetLeavesTheResetState : Prop :=
  ∀ p : Params, p.Ok → ∀ (s : State) (rest : List Transaction), s.run = .unreset ∨ s.run = .idle →
    s.host.script = .reset :: rest →
    ∃ t, stepWith p s = .next t ∧ t.pc = 0xFFFC ∧ t.sp = 0x0100 ∧ t.a = 0x00 ∧ t.x = 0x00 ∧ t.y = 0x00 ∧
      (∀ f : Flag, t.flag f = false) ∧ (∀ addr : Word, t.memRead addr = 0x00) ∧ t.diag = [] ∧ t.run = .idle ∧
      CycFits p t ∧ t.host = { s.host with script := rest }

/-- `Reset` is idempotent and fully re-initializing (70 R136): once or twice is the same state, the state before matters in
nothing but the host's own part, and every byte of memory is zero whatever it held. -/
def Obligations.ResetIsIdempotent : Prop :=
  ∀ (p : Params) (s₁ s₂ : State),
    (s₁.resetMachine p).resetMachine p = s₁.resetMachine p ∧
    (s₁.host = s₂.host → s₁.resetMachine p = s₂.resetMachine p) ∧
    ∀ addr : Word, (s₁.resetMachine p).memRead addr = 0x00

/-- Which run state accepts which transaction (10_state.md R23, 42 R104), and the budget that is refused (40 R75). Refusing
is the spec's decisions D6 and D11 (logs 9, 14). -/
def Obligations.AcceptanceByRunState : Prop :=
  ∀ (p : Params) (s : State) (x : Transaction) (rest : List Transaction), s.host.script = x :: rest →
    (s.run = .unreset → x ≠ .reset → stepWith p s = .refused .beforeReset) ∧
    (s.run = .unreset → x = .reset → ∃ t, stepWith p s = .next t) ∧
    (s.run = .idle → (∀ b, x = .execute b → b ≤ p.cycMax) → ∃ t, stepWith p s = .next t) ∧
    (∀ b, s.run = .idle → x = .execute b → p.cycMax < b → stepWith p s = .refused .budgetTooLarge) ∧
    (s.run = .running → s.transact p x = .refused .whileRunning)

/-- `HostWriteMem` (42 R105) stores one byte, and no register, flag or counter changes. -/
def Obligations.HostWriteMemStoresOneByte : Prop :=
  ∀ (p : Params) (s : State) (addr : Word) (v : Byte) (rest : List Transaction), Memory.wf s.mem = true →
    s.run = .idle → s.host.script = .writeMem addr v :: rest →
    ∃ t, stepWith p s = .next t ∧ t.memRead addr = v ∧
      (∀ other : Word, other ≠ addr → t.memRead other = s.memRead other) ∧ t = { s.withScript rest with mem := t.mem }

/-- `HostWriteReg` (42 R106) sets the one register or flag it names and nothing else. That every one of the twelve may be
written is the spec's decision D10 (log 13). -/
def Obligations.HostWriteRegSetsOneRegister : Prop :=
  ∀ (p : Params) (s : State) (rv : RegValue) (rest : List Transaction), s.run = .idle →
    s.host.script = .writeReg rv :: rest →
    ∃ t, stepWith p s = .next t ∧ t.readReg rv.name = rv ∧ (∀ r, r ≠ rv.name → t.readReg r = s.readReg r) ∧
      t.cyc = s.cyc ∧ t.run = s.run ∧ t.diag = s.diag ∧ t.host = { s.host with script := rest } ∧
      ∀ addr : Word, t.memRead addr = s.memRead addr

/-- `HostReadMem` and `HostReadReg` (42 R107) answer the current value and change nothing of the machine. That reads are
defined in `Idle` alone is the spec's decision D18, and the list of replies is the model's (logs 12, 13). -/
def Obligations.HostReadsAnswerTheCurrentValue : Prop :=
  ∀ (p : Params) (s : State) (rest : List Transaction), s.run = .idle →
    (∀ addr, s.host.script = .readMem addr :: rest →
      stepWith p s = .next { s with host :=
        { script := rest, replies := s.host.replies ++ [.byte addr (s.memRead addr)] } }) ∧
    (∀ r, s.host.script = .readReg r :: rest →
      stepWith p s = .next { s with host := { script := rest, replies := s.host.replies ++ [.reg (s.readReg r)] } }) ∧
    s.readReg (.wide .pc) = .wide .pc s.pc ∧ s.readReg (.wide .sp) = .wide .sp s.sp ∧
    s.readReg (.narrow .a) = .narrow .a s.a ∧ s.readReg (.narrow .x) = .narrow .x s.x ∧
    s.readReg (.narrow .y) = .narrow .y s.y ∧ s.readReg (.flag .c) = .flag .c s.fC ∧
    s.readReg (.flag .z) = .flag .z s.fZ ∧ s.readReg (.flag .i) = .flag .i s.fI ∧
    s.readReg (.flag .d) = .flag .d s.fD ∧ s.readReg (.flag .b) = .flag .b s.fB ∧
    s.readReg (.flag .v) = .flag .v s.fV ∧ s.readReg (.flag .n) = .flag .n s.fN

/-- Fetch is coherent with the host's writes (20_memory.md R41, R43): the two bytes the host writes at PC, in this order,
are the instruction the next `Execute` begins with, across the top of memory as well. -/
def Obligations.HostWritesAreFetched : Prop :=
  ∀ p : Params, ∀ (s : State) (op m : Byte) (budget : Int) (rest : List Transaction),
    Memory.wf s.mem = true → s.run = .idle → 1 ≤ budget → budget ≤ p.cycMax →
    s.host.script = .writeMem s.pc op :: .writeMem (s.pc + 1) m :: .execute budget :: rest →
    ∃ t, stepsWith p 3 s = .next t ∧ t.pc = s.pc ∧ t.run = .running ∧ t.cyc = budget ∧
      stepWith p t = exec (instrOfBytes p op m) t

/-- With nothing to do the host leaves the state as it is; the core waits (10_state.md R21, 60_exceptions.md R127). That
waiting is a step is the model's choice (log 12). -/
def Obligations.WaitingChangesNothing : Prop :=
  ∀ (p : Params) (s : State), s.run ≠ .running → s.host.script = [] → stepWith p s = .next s
end

