-- ==== Sys2Proof/Laws/Decode.lean ====
section
/-! SUPPORT. What the opcode decoder answers, once for each selection (30_encoding.md R54). -/

namespace Sys2Proof

@[simp] theorem decodeOpcode_opcLdaIm (p : Params) : decodeOpcode p p.opcLdaIm = .ldaIm := by
  simp [decodeOpcode]

theorem decodeOpcode_opcLdaZp (p : Params) (h : p.Ok) : decodeOpcode p p.opcLdaZp = .ldaZp := by
  simp [decodeOpcode, h.1.symm]

theorem decodeOpcode_opcLdaZpx (p : Params) (h : p.Ok) : decodeOpcode p p.opcLdaZpx = .ldaZpx := by
  simp [decodeOpcode, h.2.1.symm, h.2.2.1.symm]

/-- A byte is an unknown opcode exactly when no handler is bound to it, whatever the parameters (R56). -/
theorem decodeOpcode_eq_unk_iff (p : Params) (op : Byte) : decodeOpcode p op = .unk ↔ p.isUnbound op = true := by
  unfold decodeOpcode Params.isUnbound
  split
  · simp_all
  · split
    · simp_all
    · split <;> simp_all

/-- The selection of the instruction read is the selection of its opcode byte. -/
theorem instrOfBytes_selection (p : Params) (op next : Byte) :
    (instrOfBytes p op next).selection = decodeOpcode p op := by
  unfold instrOfBytes
  split <;> simp_all [Instr.selection]

end Sys2Proof
end

