-- ==== Sys2Proof/Laws/Memory.lean ====
section
/-! SUPPORT. The laws of memory: what a read gives after a write, and that writing keeps the canonical form. -/

namespace Sys2Proof.Machine

@[simp] theorem Memory.read_nil (addr : Nat) : Memory.read [] addr = Memory.unlisted := rfl

@[simp] theorem Memory.read_cons (k : Nat) (b : Byte) (rest : Memory) (addr : Nat) :
    Memory.read ((k, b) :: rest) addr = if k = addr then b else Memory.read rest addr := rfl

/-- The canonical form, cell by cell. -/
theorem Memory.wf_cons (k : Nat) (b : Byte) (rest : Memory) :
    Memory.wf ((k, b) :: rest) = true ↔
      k < 65536 ∧ b ≠ Memory.unlisted ∧ (∀ c ∈ rest, k < c.1) ∧ Memory.wf rest = true := by
  simp [Memory.wf, and_assoc]

/-- An address below every listed one is unlisted. -/
theorem Memory.read_of_lt : ∀ (m : Memory) (addr : Nat), (∀ c ∈ m, addr < c.1) → Memory.read m addr = Memory.unlisted
  | [], _, _ => rfl
  | (k, b) :: rest, addr, h => by
    have hk : addr < k := h (k, b) (by simp)
    rw [Memory.read_cons, if_neg (by omega)]
    exact Memory.read_of_lt rest addr fun c hc => h c (by simp [hc])

theorem Memory.read_consCell (addr : Nat) (v : Byte) (rest : Memory) (h : ∀ c ∈ rest, addr < c.1) (loc : Nat) :
    Memory.read (Memory.consCell addr v rest) loc = if addr = loc then v else Memory.read rest loc := by
  unfold Memory.consCell
  split
  next hv =>
    split
    next ha => rw [← ha, Memory.read_of_lt rest addr h, hv]
    next => rfl
  next => rw [Memory.read_cons]

/-- A read after a write: the byte written at its own address, the old byte everywhere else. -/
theorem Memory.read_write : ∀ (m : Memory) (addr : Nat) (v : Byte) (loc : Nat), Memory.wf m = true →
    Memory.read (Memory.write m addr v) loc = if addr = loc then v else Memory.read m loc
  | [], addr, v, loc, _ => Memory.read_consCell addr v [] (by simp) loc
  | (k, b) :: rest, addr, v, loc, h => by
    obtain ⟨_, _, hlt, hrest⟩ := (Memory.wf_cons k b rest).mp h
    unfold Memory.write
    split
    next hak =>
      refine Memory.read_consCell addr v _ ?_ loc
      intro c hc
      rcases List.mem_cons.mp hc with rfl | hc
      · exact hak
      · have := hlt c hc; omega
    next hak =>
      split
      next heq =>
        subst heq
        rw [Memory.read_consCell addr v rest hlt loc, Memory.read_cons]
        split <;> rfl
      next hne =>
        rw [Memory.read_cons, Memory.read_cons, Memory.read_write rest addr v loc hrest]
        split
        next hk => rw [if_neg (by omega)]
        next => rfl

theorem Memory.mem_write : ∀ (m : Memory) (addr : Nat) (v : Byte) (c : Host.Cell), c ∈ Memory.write m addr v →
    c = (addr, v) ∨ c ∈ m
  | [], addr, v, c, h => by
    unfold Memory.write Memory.consCell at h
    split at h <;> simp_all
  | (k, b) :: rest, addr, v, c, h => by
    unfold Memory.write Memory.consCell at h
    split at h
    · split at h <;> simp_all
    · split at h
      · split at h <;> simp_all
        rcases h with h | h <;> simp [h]
      · rcases List.mem_cons.mp h with h | h
        · simp [h]
        · rcases Memory.mem_write rest addr v c h with h | h <;> simp [h]

theorem Memory.wf_consCell (addr : Nat) (v : Byte) (rest : Memory) (ha : addr < 65536) (h : ∀ c ∈ rest, addr < c.1)
    (hrest : Memory.wf rest = true) : Memory.wf (Memory.consCell addr v rest) = true := by
  unfold Memory.consCell
  split
  next => exact hrest
  next hv => exact (Memory.wf_cons addr v rest).mpr ⟨ha, hv, h, hrest⟩

/-- Writing a byte keeps the canonical form. -/
theorem Memory.wf_write : ∀ (m : Memory) (addr : Nat) (v : Byte), addr < 65536 → Memory.wf m = true →
    Memory.wf (Memory.write m addr v) = true
  | [], addr, v, ha, _ => Memory.wf_consCell addr v [] ha (by simp) rfl
  | (k, b) :: rest, addr, v, ha, h => by
    obtain ⟨hk, hb, hlt, hrest⟩ := (Memory.wf_cons k b rest).mp h
    unfold Memory.write
    split
    next hak =>
      refine Memory.wf_consCell addr v _ ha ?_ h
      intro c hc
      rcases List.mem_cons.mp hc with rfl | hc
      · exact hak
      · have := hlt c hc; omega
    next hak =>
      split
      next heq => subst heq; exact Memory.wf_consCell addr v rest ha hlt hrest
      next hne =>
        refine (Memory.wf_cons _ _ _).mpr ⟨hk, hb, ?_, Memory.wf_write rest addr v ha hrest⟩
        intro c hc
        rcases Memory.mem_write rest addr v c hc with rfl | hc
        · show k < addr; omega
        · exact hlt c hc

theorem Memory.read_consCell_other (addr : Nat) (v : Byte) (rest : Memory) (loc : Nat) (h : addr ≠ loc) :
    Memory.read (Memory.consCell addr v rest) loc = Memory.read rest loc := by
  unfold Memory.consCell
  split
  next => rfl
  next => rw [Memory.read_cons, if_neg h]

/-- A write leaves every other address alone, in any list of cells. -/
theorem Memory.read_write_other : ∀ (m : Memory) (addr : Nat) (v : Byte) (loc : Nat), addr ≠ loc →
    Memory.read (Memory.write m addr v) loc = Memory.read m loc
  | [], addr, v, loc, h => Memory.read_consCell_other addr v [] loc h
  | (k, b) :: rest, addr, v, loc, h => by
    unfold Memory.write
    split
    next => exact Memory.read_consCell_other addr v _ loc h
    next =>
      split
      next heq =>
        subst heq
        rw [Memory.read_consCell_other addr v _ loc h, Memory.read_cons, if_neg h]
      next => rw [Memory.read_cons, Memory.read_cons, Memory.read_write_other rest addr v loc h]

/-- `MemRead` after `MemWrite` (20_memory.md R34). -/
theorem State.memRead_memWrite (s : State) (addr : Word) (v : Byte) (loc : Word) (h : Memory.wf s.mem = true) :
    (s.memWrite addr v).memRead loc = if addr = loc then v else s.memRead loc := by
  unfold State.memRead State.memWrite
  rw [Memory.read_write s.mem addr.toNat v loc.toNat h]
  simp only [BitVec.toNat_inj]

/-- `MemWrite` keeps the canonical form. -/
theorem State.memWrite_wf (s : State) (addr : Word) (v : Byte) (h : Memory.wf s.mem = true) :
    Memory.wf (s.memWrite addr v).mem = true :=
  Memory.wf_write s.mem addr.toNat v addr.isLt h

/-- Placing several bytes keeps the canonical form. -/
theorem State.memWriteBytes_wf (bytes : List Byte) : ∀ (s : State) (addr : Word), Memory.wf s.mem = true →
    Memory.wf (s.memWriteBytes addr bytes).mem = true := by
  induction bytes with
  | nil => exact fun _ _ h => h
  | cons v rest ih => exact fun s addr h => ih _ _ (s.memWrite_wf addr v h)

/-- Memory right after reset has the canonical form. -/
theorem State.reset_mem_wf : Memory.wf State.reset.mem = true := rfl

end Sys2Proof.Machine
end

