-- ==== Sys2Proof/Laws/State.lean ====
section
/-! SUPPORT. One lemma per field for each named update of the state, so that no proof unfolds a record update. -/

namespace Sys2Proof.Machine

variable (s : State)

/-! ### charge -/

@[simp] theorem State.charge_pc : (s.charge).pc = s.pc := rfl
@[simp] theorem State.charge_sp : (s.charge).sp = s.sp := rfl
@[simp] theorem State.charge_a : (s.charge).a = s.a := rfl
@[simp] theorem State.charge_x : (s.charge).x = s.x := rfl
@[simp] theorem State.charge_y : (s.charge).y = s.y := rfl
@[simp] theorem State.charge_fC : (s.charge).fC = s.fC := rfl
@[simp] theorem State.charge_fZ : (s.charge).fZ = s.fZ := rfl
@[simp] theorem State.charge_fI : (s.charge).fI = s.fI := rfl
@[simp] theorem State.charge_fD : (s.charge).fD = s.fD := rfl
@[simp] theorem State.charge_fB : (s.charge).fB = s.fB := rfl
@[simp] theorem State.charge_fV : (s.charge).fV = s.fV := rfl
@[simp] theorem State.charge_fN : (s.charge).fN = s.fN := rfl
@[simp] theorem State.charge_cyc : (s.charge).cyc = s.cyc - 1 := rfl
@[simp] theorem State.charge_run : (s.charge).run = s.run := rfl
@[simp] theorem State.charge_mem : (s.charge).mem = s.mem := rfl
@[simp] theorem State.charge_diag : (s.charge).diag = s.diag := rfl
@[simp] theorem State.charge_host : (s.charge).host = s.host := rfl
@[simp] theorem State.charge_memRead (loc : Word) : (s.charge).memRead loc = s.memRead loc := rfl

/-! ### pcIncrement -/

@[simp] theorem State.pcIncrement_pc : (s.pcIncrement).pc = s.pc + 1 := rfl
@[simp] theorem State.pcIncrement_sp : (s.pcIncrement).sp = s.sp := rfl
@[simp] theorem State.pcIncrement_a : (s.pcIncrement).a = s.a := rfl
@[simp] theorem State.pcIncrement_x : (s.pcIncrement).x = s.x := rfl
@[simp] theorem State.pcIncrement_y : (s.pcIncrement).y = s.y := rfl
@[simp] theorem State.pcIncrement_fC : (s.pcIncrement).fC = s.fC := rfl
@[simp] theorem State.pcIncrement_fZ : (s.pcIncrement).fZ = s.fZ := rfl
@[simp] theorem State.pcIncrement_fI : (s.pcIncrement).fI = s.fI := rfl
@[simp] theorem State.pcIncrement_fD : (s.pcIncrement).fD = s.fD := rfl
@[simp] theorem State.pcIncrement_fB : (s.pcIncrement).fB = s.fB := rfl
@[simp] theorem State.pcIncrement_fV : (s.pcIncrement).fV = s.fV := rfl
@[simp] theorem State.pcIncrement_fN : (s.pcIncrement).fN = s.fN := rfl
@[simp] theorem State.pcIncrement_cyc : (s.pcIncrement).cyc = s.cyc := rfl
@[simp] theorem State.pcIncrement_run : (s.pcIncrement).run = s.run := rfl
@[simp] theorem State.pcIncrement_mem : (s.pcIncrement).mem = s.mem := rfl
@[simp] theorem State.pcIncrement_diag : (s.pcIncrement).diag = s.diag := rfl
@[simp] theorem State.pcIncrement_host : (s.pcIncrement).host = s.host := rfl
@[simp] theorem State.pcIncrement_memRead (loc : Word) : (s.pcIncrement).memRead loc = s.memRead loc := rfl

/-! ### passByte -/

@[simp] theorem State.passByte_pc : (s.passByte).pc = s.pc + 1 := rfl
@[simp] theorem State.passByte_sp : (s.passByte).sp = s.sp := rfl
@[simp] theorem State.passByte_a : (s.passByte).a = s.a := rfl
@[simp] theorem State.passByte_x : (s.passByte).x = s.x := rfl
@[simp] theorem State.passByte_y : (s.passByte).y = s.y := rfl
@[simp] theorem State.passByte_fC : (s.passByte).fC = s.fC := rfl
@[simp] theorem State.passByte_fZ : (s.passByte).fZ = s.fZ := rfl
@[simp] theorem State.passByte_fI : (s.passByte).fI = s.fI := rfl
@[simp] theorem State.passByte_fD : (s.passByte).fD = s.fD := rfl
@[simp] theorem State.passByte_fB : (s.passByte).fB = s.fB := rfl
@[simp] theorem State.passByte_fV : (s.passByte).fV = s.fV := rfl
@[simp] theorem State.passByte_fN : (s.passByte).fN = s.fN := rfl
@[simp] theorem State.passByte_cyc : (s.passByte).cyc = s.cyc - 1 := rfl
@[simp] theorem State.passByte_run : (s.passByte).run = s.run := rfl
@[simp] theorem State.passByte_mem : (s.passByte).mem = s.mem := rfl
@[simp] theorem State.passByte_diag : (s.passByte).diag = s.diag := rfl
@[simp] theorem State.passByte_host : (s.passByte).host = s.host := rfl
@[simp] theorem State.passByte_memRead (loc : Word) : (s.passByte).memRead loc = s.memRead loc := rfl

/-! ### memWrite -/

@[simp] theorem State.memWrite_pc (addr : Word) (v : Byte) : (s.memWrite addr v).pc = s.pc := rfl
@[simp] theorem State.memWrite_sp (addr : Word) (v : Byte) : (s.memWrite addr v).sp = s.sp := rfl
@[simp] theorem State.memWrite_a (addr : Word) (v : Byte) : (s.memWrite addr v).a = s.a := rfl
@[simp] theorem State.memWrite_x (addr : Word) (v : Byte) : (s.memWrite addr v).x = s.x := rfl
@[simp] theorem State.memWrite_y (addr : Word) (v : Byte) : (s.memWrite addr v).y = s.y := rfl
@[simp] theorem State.memWrite_fC (addr : Word) (v : Byte) : (s.memWrite addr v).fC = s.fC := rfl
@[simp] theorem State.memWrite_fZ (addr : Word) (v : Byte) : (s.memWrite addr v).fZ = s.fZ := rfl
@[simp] theorem State.memWrite_fI (addr : Word) (v : Byte) : (s.memWrite addr v).fI = s.fI := rfl
@[simp] theorem State.memWrite_fD (addr : Word) (v : Byte) : (s.memWrite addr v).fD = s.fD := rfl
@[simp] theorem State.memWrite_fB (addr : Word) (v : Byte) : (s.memWrite addr v).fB = s.fB := rfl
@[simp] theorem State.memWrite_fV (addr : Word) (v : Byte) : (s.memWrite addr v).fV = s.fV := rfl
@[simp] theorem State.memWrite_fN (addr : Word) (v : Byte) : (s.memWrite addr v).fN = s.fN := rfl
@[simp] theorem State.memWrite_cyc (addr : Word) (v : Byte) : (s.memWrite addr v).cyc = s.cyc := rfl
@[simp] theorem State.memWrite_run (addr : Word) (v : Byte) : (s.memWrite addr v).run = s.run := rfl
@[simp] theorem State.memWrite_mem (addr : Word) (v : Byte) : (s.memWrite addr v).mem = Memory.write s.mem addr.toNat v := rfl
@[simp] theorem State.memWrite_diag (addr : Word) (v : Byte) : (s.memWrite addr v).diag = s.diag := rfl
@[simp] theorem State.memWrite_host (addr : Word) (v : Byte) : (s.memWrite addr v).host = s.host := rfl

/-! ### setA -/

@[simp] theorem State.setA_pc (v : Byte) : (s.setA v).pc = s.pc := rfl
@[simp] theorem State.setA_sp (v : Byte) : (s.setA v).sp = s.sp := rfl
@[simp] theorem State.setA_a (v : Byte) : (s.setA v).a = v := rfl
@[simp] theorem State.setA_x (v : Byte) : (s.setA v).x = s.x := rfl
@[simp] theorem State.setA_y (v : Byte) : (s.setA v).y = s.y := rfl
@[simp] theorem State.setA_fC (v : Byte) : (s.setA v).fC = s.fC := rfl
@[simp] theorem State.setA_fZ (v : Byte) : (s.setA v).fZ = s.fZ := rfl
@[simp] theorem State.setA_fI (v : Byte) : (s.setA v).fI = s.fI := rfl
@[simp] theorem State.setA_fD (v : Byte) : (s.setA v).fD = s.fD := rfl
@[simp] theorem State.setA_fB (v : Byte) : (s.setA v).fB = s.fB := rfl
@[simp] theorem State.setA_fV (v : Byte) : (s.setA v).fV = s.fV := rfl
@[simp] theorem State.setA_fN (v : Byte) : (s.setA v).fN = s.fN := rfl
@[simp] theorem State.setA_cyc (v : Byte) : (s.setA v).cyc = s.cyc := rfl
@[simp] theorem State.setA_run (v : Byte) : (s.setA v).run = s.run := rfl
@[simp] theorem State.setA_mem (v : Byte) : (s.setA v).mem = s.mem := rfl
@[simp] theorem State.setA_diag (v : Byte) : (s.setA v).diag = s.diag := rfl
@[simp] theorem State.setA_host (v : Byte) : (s.setA v).host = s.host := rfl
@[simp] theorem State.setA_memRead (v : Byte) (loc : Word) : (s.setA v).memRead loc = s.memRead loc := rfl

/-! ### setZN -/

@[simp] theorem State.setZN_pc : (s.setZN).pc = s.pc := rfl
@[simp] theorem State.setZN_sp : (s.setZN).sp = s.sp := rfl
@[simp] theorem State.setZN_a : (s.setZN).a = s.a := rfl
@[simp] theorem State.setZN_x : (s.setZN).x = s.x := rfl
@[simp] theorem State.setZN_y : (s.setZN).y = s.y := rfl
@[simp] theorem State.setZN_fC : (s.setZN).fC = s.fC := rfl
@[simp] theorem State.setZN_fZ : (s.setZN).fZ = (s.a == 0x00) := rfl
@[simp] theorem State.setZN_fI : (s.setZN).fI = s.fI := rfl
@[simp] theorem State.setZN_fD : (s.setZN).fD = s.fD := rfl
@[simp] theorem State.setZN_fB : (s.setZN).fB = s.fB := rfl
@[simp] theorem State.setZN_fV : (s.setZN).fV = s.fV := rfl
@[simp] theorem State.setZN_fN : (s.setZN).fN = s.a.msb := rfl
@[simp] theorem State.setZN_cyc : (s.setZN).cyc = s.cyc := rfl
@[simp] theorem State.setZN_run : (s.setZN).run = s.run := rfl
@[simp] theorem State.setZN_mem : (s.setZN).mem = s.mem := rfl
@[simp] theorem State.setZN_diag : (s.setZN).diag = s.diag := rfl
@[simp] theorem State.setZN_host : (s.setZN).host = s.host := rfl
@[simp] theorem State.setZN_memRead (loc : Word) : (s.setZN).memRead loc = s.memRead loc := rfl

/-! ### raiseUnknownOpcode -/

@[simp] theorem State.raiseUnknownOpcode_pc (op : Byte) (opaddr : Word) : (s.raiseUnknownOpcode op opaddr).pc = s.pc := rfl
@[simp] theorem State.raiseUnknownOpcode_sp (op : Byte) (opaddr : Word) : (s.raiseUnknownOpcode op opaddr).sp = s.sp := rfl
@[simp] theorem State.raiseUnknownOpcode_a (op : Byte) (opaddr : Word) : (s.raiseUnknownOpcode op opaddr).a = s.a := rfl
@[simp] theorem State.raiseUnknownOpcode_x (op : Byte) (opaddr : Word) : (s.raiseUnknownOpcode op opaddr).x = s.x := rfl
@[simp] theorem State.raiseUnknownOpcode_y (op : Byte) (opaddr : Word) : (s.raiseUnknownOpcode op opaddr).y = s.y := rfl
@[simp] theorem State.raiseUnknownOpcode_fC (op : Byte) (opaddr : Word) : (s.raiseUnknownOpcode op opaddr).fC = s.fC := rfl
@[simp] theorem State.raiseUnknownOpcode_fZ (op : Byte) (opaddr : Word) : (s.raiseUnknownOpcode op opaddr).fZ = s.fZ := rfl
@[simp] theorem State.raiseUnknownOpcode_fI (op : Byte) (opaddr : Word) : (s.raiseUnknownOpcode op opaddr).fI = s.fI := rfl
@[simp] theorem State.raiseUnknownOpcode_fD (op : Byte) (opaddr : Word) : (s.raiseUnknownOpcode op opaddr).fD = s.fD := rfl
@[simp] theorem State.raiseUnknownOpcode_fB (op : Byte) (opaddr : Word) : (s.raiseUnknownOpcode op opaddr).fB = s.fB := rfl
@[simp] theorem State.raiseUnknownOpcode_fV (op : Byte) (opaddr : Word) : (s.raiseUnknownOpcode op opaddr).fV = s.fV := rfl
@[simp] theorem State.raiseUnknownOpcode_fN (op : Byte) (opaddr : Word) : (s.raiseUnknownOpcode op opaddr).fN = s.fN := rfl
@[simp] theorem State.raiseUnknownOpcode_cyc (op : Byte) (opaddr : Word) : (s.raiseUnknownOpcode op opaddr).cyc = s.cyc := rfl
@[simp] theorem State.raiseUnknownOpcode_run (op : Byte) (opaddr : Word) : (s.raiseUnknownOpcode op opaddr).run = s.run := rfl
@[simp] theorem State.raiseUnknownOpcode_mem (op : Byte) (opaddr : Word) : (s.raiseUnknownOpcode op opaddr).mem = s.mem := rfl
@[simp] theorem State.raiseUnknownOpcode_diag (op : Byte) (opaddr : Word) : (s.raiseUnknownOpcode op opaddr).diag = s.diag ++ [.unknownOpcode op opaddr] := rfl
@[simp] theorem State.raiseUnknownOpcode_host (op : Byte) (opaddr : Word) : (s.raiseUnknownOpcode op opaddr).host = s.host := rfl
@[simp] theorem State.raiseUnknownOpcode_memRead (op : Byte) (opaddr : Word) (loc : Word) : (s.raiseUnknownOpcode op opaddr).memRead loc = s.memRead loc := rfl

/-! ### enterExecute -/

@[simp] theorem State.enterExecute_pc (budget : Int) : (s.enterExecute budget).pc = s.pc := rfl
@[simp] theorem State.enterExecute_sp (budget : Int) : (s.enterExecute budget).sp = s.sp := rfl
@[simp] theorem State.enterExecute_a (budget : Int) : (s.enterExecute budget).a = s.a := rfl
@[simp] theorem State.enterExecute_x (budget : Int) : (s.enterExecute budget).x = s.x := rfl
@[simp] theorem State.enterExecute_y (budget : Int) : (s.enterExecute budget).y = s.y := rfl
@[simp] theorem State.enterExecute_fC (budget : Int) : (s.enterExecute budget).fC = s.fC := rfl
@[simp] theorem State.enterExecute_fZ (budget : Int) : (s.enterExecute budget).fZ = s.fZ := rfl
@[simp] theorem State.enterExecute_fI (budget : Int) : (s.enterExecute budget).fI = s.fI := rfl
@[simp] theorem State.enterExecute_fD (budget : Int) : (s.enterExecute budget).fD = s.fD := rfl
@[simp] theorem State.enterExecute_fB (budget : Int) : (s.enterExecute budget).fB = s.fB := rfl
@[simp] theorem State.enterExecute_fV (budget : Int) : (s.enterExecute budget).fV = s.fV := rfl
@[simp] theorem State.enterExecute_fN (budget : Int) : (s.enterExecute budget).fN = s.fN := rfl
@[simp] theorem State.enterExecute_cyc (budget : Int) : (s.enterExecute budget).cyc = budget := rfl
@[simp] theorem State.enterExecute_run (budget : Int) : (s.enterExecute budget).run = .running := rfl
@[simp] theorem State.enterExecute_mem (budget : Int) : (s.enterExecute budget).mem = s.mem := rfl
@[simp] theorem State.enterExecute_diag (budget : Int) : (s.enterExecute budget).diag = s.diag := rfl
@[simp] theorem State.enterExecute_host (budget : Int) : (s.enterExecute budget).host = s.host := rfl
@[simp] theorem State.enterExecute_memRead (budget : Int) (loc : Word) : (s.enterExecute budget).memRead loc = s.memRead loc := rfl

/-! ### leaveExecute -/

@[simp] theorem State.leaveExecute_pc : (s.leaveExecute).pc = s.pc := rfl
@[simp] theorem State.leaveExecute_sp : (s.leaveExecute).sp = s.sp := rfl
@[simp] theorem State.leaveExecute_a : (s.leaveExecute).a = s.a := rfl
@[simp] theorem State.leaveExecute_x : (s.leaveExecute).x = s.x := rfl
@[simp] theorem State.leaveExecute_y : (s.leaveExecute).y = s.y := rfl
@[simp] theorem State.leaveExecute_fC : (s.leaveExecute).fC = s.fC := rfl
@[simp] theorem State.leaveExecute_fZ : (s.leaveExecute).fZ = s.fZ := rfl
@[simp] theorem State.leaveExecute_fI : (s.leaveExecute).fI = s.fI := rfl
@[simp] theorem State.leaveExecute_fD : (s.leaveExecute).fD = s.fD := rfl
@[simp] theorem State.leaveExecute_fB : (s.leaveExecute).fB = s.fB := rfl
@[simp] theorem State.leaveExecute_fV : (s.leaveExecute).fV = s.fV := rfl
@[simp] theorem State.leaveExecute_fN : (s.leaveExecute).fN = s.fN := rfl
@[simp] theorem State.leaveExecute_cyc : (s.leaveExecute).cyc = s.cyc := rfl
@[simp] theorem State.leaveExecute_run : (s.leaveExecute).run = .idle := rfl
@[simp] theorem State.leaveExecute_mem : (s.leaveExecute).mem = s.mem := rfl
@[simp] theorem State.leaveExecute_diag : (s.leaveExecute).diag = s.diag := rfl
@[simp] theorem State.leaveExecute_host : (s.leaveExecute).host = s.host := rfl
@[simp] theorem State.leaveExecute_memRead (loc : Word) : (s.leaveExecute).memRead loc = s.memRead loc := rfl

/-! ### reply -/

@[simp] theorem State.reply_pc (r : Reply) : (s.reply r).pc = s.pc := rfl
@[simp] theorem State.reply_sp (r : Reply) : (s.reply r).sp = s.sp := rfl
@[simp] theorem State.reply_a (r : Reply) : (s.reply r).a = s.a := rfl
@[simp] theorem State.reply_x (r : Reply) : (s.reply r).x = s.x := rfl
@[simp] theorem State.reply_y (r : Reply) : (s.reply r).y = s.y := rfl
@[simp] theorem State.reply_fC (r : Reply) : (s.reply r).fC = s.fC := rfl
@[simp] theorem State.reply_fZ (r : Reply) : (s.reply r).fZ = s.fZ := rfl
@[simp] theorem State.reply_fI (r : Reply) : (s.reply r).fI = s.fI := rfl
@[simp] theorem State.reply_fD (r : Reply) : (s.reply r).fD = s.fD := rfl
@[simp] theorem State.reply_fB (r : Reply) : (s.reply r).fB = s.fB := rfl
@[simp] theorem State.reply_fV (r : Reply) : (s.reply r).fV = s.fV := rfl
@[simp] theorem State.reply_fN (r : Reply) : (s.reply r).fN = s.fN := rfl
@[simp] theorem State.reply_cyc (r : Reply) : (s.reply r).cyc = s.cyc := rfl
@[simp] theorem State.reply_run (r : Reply) : (s.reply r).run = s.run := rfl
@[simp] theorem State.reply_mem (r : Reply) : (s.reply r).mem = s.mem := rfl
@[simp] theorem State.reply_diag (r : Reply) : (s.reply r).diag = s.diag := rfl
@[simp] theorem State.reply_host (r : Reply) : (s.reply r).host = { s.host with replies := s.host.replies ++ [r] } := rfl
@[simp] theorem State.reply_memRead (r : Reply) (loc : Word) : (s.reply r).memRead loc = s.memRead loc := rfl

/-! ### withScript -/

@[simp] theorem State.withScript_pc (rest : List Transaction) : (s.withScript rest).pc = s.pc := rfl
@[simp] theorem State.withScript_sp (rest : List Transaction) : (s.withScript rest).sp = s.sp := rfl
@[simp] theorem State.withScript_a (rest : List Transaction) : (s.withScript rest).a = s.a := rfl
@[simp] theorem State.withScript_x (rest : List Transaction) : (s.withScript rest).x = s.x := rfl
@[simp] theorem State.withScript_y (rest : List Transaction) : (s.withScript rest).y = s.y := rfl
@[simp] theorem State.withScript_fC (rest : List Transaction) : (s.withScript rest).fC = s.fC := rfl
@[simp] theorem State.withScript_fZ (rest : List Transaction) : (s.withScript rest).fZ = s.fZ := rfl
@[simp] theorem State.withScript_fI (rest : List Transaction) : (s.withScript rest).fI = s.fI := rfl
@[simp] theorem State.withScript_fD (rest : List Transaction) : (s.withScript rest).fD = s.fD := rfl
@[simp] theorem State.withScript_fB (rest : List Transaction) : (s.withScript rest).fB = s.fB := rfl
@[simp] theorem State.withScript_fV (rest : List Transaction) : (s.withScript rest).fV = s.fV := rfl
@[simp] theorem State.withScript_fN (rest : List Transaction) : (s.withScript rest).fN = s.fN := rfl
@[simp] theorem State.withScript_cyc (rest : List Transaction) : (s.withScript rest).cyc = s.cyc := rfl
@[simp] theorem State.withScript_run (rest : List Transaction) : (s.withScript rest).run = s.run := rfl
@[simp] theorem State.withScript_mem (rest : List Transaction) : (s.withScript rest).mem = s.mem := rfl
@[simp] theorem State.withScript_diag (rest : List Transaction) : (s.withScript rest).diag = s.diag := rfl
@[simp] theorem State.withScript_host (rest : List Transaction) : (s.withScript rest).host = { s.host with script := rest } := rfl
@[simp] theorem State.withScript_memRead (rest : List Transaction) (loc : Word) : (s.withScript rest).memRead loc = s.memRead loc := rfl

/-! ### setFlag -/

@[simp] theorem State.flag_setFlag (f g : Flag) (v : Bool) :
    (s.setFlag f v).flag g = if f = g then v else s.flag g := by
  cases f <;> cases g <;> rfl

/-- Writing a flag leaves everything but the seven flags. -/
theorem State.setFlag_rest (f : Flag) (v : Bool) :
    (s.setFlag f v).pc = s.pc ∧ (s.setFlag f v).sp = s.sp ∧ (s.setFlag f v).a = s.a ∧ (s.setFlag f v).x = s.x ∧
      (s.setFlag f v).y = s.y ∧ (s.setFlag f v).cyc = s.cyc ∧ (s.setFlag f v).run = s.run ∧
      (s.setFlag f v).mem = s.mem ∧ (s.setFlag f v).diag = s.diag ∧ (s.setFlag f v).host = s.host := by
  cases f <;> exact ⟨rfl, rfl, rfl, rfl, rfl, rfl, rfl, rfl, rfl, rfl⟩

/-! ### writeReg -/

/-- The host's write of a register leaves the counter, the run state, memory, `DIAG` and the host. -/
theorem State.writeReg_rest (rv : RegValue) :
    (s.writeReg rv).cyc = s.cyc ∧ (s.writeReg rv).run = s.run ∧ (s.writeReg rv).mem = s.mem ∧
      (s.writeReg rv).diag = s.diag ∧ (s.writeReg rv).host = s.host := by
  rcases rv with ⟨r, v⟩ | ⟨r, v⟩ | ⟨r, v⟩ <;> cases r <;> exact ⟨rfl, rfl, rfl, rfl, rfl⟩

end Sys2Proof.Machine
end

