-- ==== Sys2Proof/Laws/Ops.lean ====
section
/-! SUPPORT. For each shared operation, everything it does, said once. -/

namespace Sys2Proof.Machine

theorem State.passByte_eq (s : State) : s.passByte = { s with pc := s.pc + 1, cyc := s.cyc - 1 } := rfl

@[simp] theorem State.fetchByte_fst (s : State) : s.fetchByte.1 = s.memRead s.pc := rfl

@[simp] theorem State.fetchByte_snd (s : State) : s.fetchByte.2 = s.passByte := rfl

@[simp] theorem State.readByte_fst (s : State) (addr : Word) : (s.readByte addr).1 = s.memRead addr := rfl

@[simp] theorem State.readByte_snd (s : State) (addr : Word) : (s.readByte addr).2 = s.charge := rfl

/-- The end of every load (41_load_accumulator.md R85). -/
theorem State.loadA_eq (s : State) (v : Byte) :
    s.loadA v = { s with a := v, fZ := v == 0x00, fN := v.msb } := rfl

/-- The end of a load from memory (R87, R88). -/
theorem State.loadAFrom_eq (s : State) (ea : Word) :
    s.loadAFrom ea = { s with a := s.memRead ea, fZ := s.memRead ea == 0x00, fN := (s.memRead ea).msb, cyc := s.cyc - 1 } :=
  rfl

/-- The report of an unknown opcode (60_exceptions.md R115). -/
theorem State.raiseUnknownOpcode_eq (s : State) (op : Byte) (opaddr : Word) :
    s.raiseUnknownOpcode op opaddr = { s with diag := s.diag ++ [.unknownOpcode op opaddr] } := rfl

/-- Zero extension keeps the value (00_scope.md R6). -/
@[simp] theorem zext16_toNat (v : Byte) : (zext16 v).toNat = v.toNat := by
  unfold zext16
  rw [BitVec.toNat_setWidth]
  exact Nat.mod_eq_of_lt (by have := v.isLt; omega)

@[simp] theorem indexSum_toNat (m x : Byte) : (indexSum m x).toNat = (m.toNat + x.toNat) % 256 := by
  simp [indexSum, BitVec.toNat_add]

/-- A reading of an integer in `w` bits lies in the range of `w` bits (00_scope.md R6). -/
theorem signedInBits_range (w : Nat) (hw : 1 ≤ w) (v : Int) :
    -(2 ^ (w - 1)) ≤ signedInBits w v ∧ signedInBits w v ≤ 2 ^ (w - 1) - 1 := by
  have h2 : (2 : Nat) ^ w = 2 * 2 ^ (w - 1) := by
    rw [← pow_succ']; congr 1; omega
  have hpos : 0 < (2 : Nat) ^ w := Nat.two_pow_pos w
  have hlo := Int.le_bmod (x := v) hpos
  have hhi := Int.bmod_lt (x := v) hpos
  unfold signedInBits
  push_cast at hlo hhi ⊢
  have h2' : (2 : Int) ^ w = 2 * 2 ^ (w - 1) := by exact_mod_cast h2
  rw [h2'] at hlo hhi
  constructor <;> omega

/-- What `Reset` does (70_reset_and_hazards.md R135). -/
theorem State.resetMachine_eq (p : Params) (s : State) :
    s.resetMachine p =
      { State.reset with cyc := signedInBits p.cycW Config.cycAfterReset, host := s.host } := rfl

end Sys2Proof.Machine
end

