-- ==== Sys2Proof/Laws/PerInstr.lean ====
section
/-! SUPPORT. Facts about every instruction as syntax, one lemma per constructor. -/

namespace Sys2Proof.Laws.OpcodeFirst

/-- A well-formed instruction is its opcode byte, which selects it, and then its operand bytes, which make up its length
(30_encoding.md R51, R52). -/
def Statement (i : Instr) : Prop :=
  ∀ p : Params, p.Ok → i.wf p = true →
    ∃ op operands, encode p i = op :: operands ∧ decodeOpcode p op = i.selection ∧ operands.length + 1 = i.length

theorem ldaIm (m : Byte) : Statement (.ldaIm m) := fun p _ _ =>
  ⟨p.opcLdaIm, [m], rfl, decodeOpcode_opcLdaIm p, rfl⟩

theorem ldaZp (m : Byte) : Statement (.ldaZp m) := fun p h _ =>
  ⟨p.opcLdaZp, [m], rfl, decodeOpcode_opcLdaZp p h, rfl⟩

theorem ldaZpx (m : Byte) : Statement (.ldaZpx m) := fun p h _ =>
  ⟨p.opcLdaZpx, [m], rfl, decodeOpcode_opcLdaZpx p h, rfl⟩

theorem unk (op : Byte) : Statement (.unk op) := fun p _ hw =>
  ⟨op, [], rfl, (decodeOpcode_eq_unk_iff p op).mpr hw, rfl⟩

end Sys2Proof.Laws.OpcodeFirst
end

