-- ==== Sys2Proof/Laws/Step.lean ====
section
/-! SUPPORT. What one step can do, said once: statements about steps are derived from these. -/

namespace Sys2Proof.Machine

/-- A running core with budget left executes the instruction at PC (40_fetch_execute.md R76, R77). -/
theorem stepWith_running (p : Params) (s : State) (hr : s.run = .running) (hc : 0 < s.cyc) :
    stepWith p s = exec (s.instrAtPc p) s := by
  simp [stepWith, hr, State.budgetLeft, hc]

/-- A running core without budget returns from `Execute` (R76). -/
theorem stepWith_exhausted (p : Params) (s : State) (hr : s.run = .running) (hc : s.cyc ≤ 0) :
    stepWith p s = .next s.leaveExecute := by
  have : ¬ 0 < s.cyc := by omega
  simp [stepWith, hr, State.budgetLeft, this]

/-- A core that is not running leaves the move to the host. -/
theorem stepWith_host (p : Params) (s : State) (hr : s.run ≠ .running) : stepWith p s = s.hostTurn p := by
  unfold stepWith
  cases h : s.run <;> simp_all

/-- A host with nothing to do changes nothing. -/
theorem State.hostTurn_nil (p : Params) (s : State) (h : s.host.script = []) : s.hostTurn p = .next s := by
  simp [State.hostTurn, h]

theorem State.hostTurn_cons (p : Params) (s : State) (t : Transaction) (rest : List Transaction)
    (h : s.host.script = t :: rest) : s.hostTurn p = (s.withScript rest).transact p t := by
  simp [State.hostTurn, h]

/-- Everything a transaction that is carried out can do (42_blocks_and_host_interface.md R103). -/
theorem State.transact_cases {p : Params} {t : Transaction} {s s' : State} (h : s.transact p t = .next s') :
    (t = .reset ∧ s.run ≠ .running ∧ s' = s.resetMachine p) ∨
      (s.run = .idle ∧
        ((∃ addr v, t = .writeMem addr v ∧ s' = s.memWrite addr v) ∨
          (∃ addr, t = .readMem addr ∧ s' = s.reply (.byte addr (s.memRead addr))) ∨
          (∃ rv, t = .writeReg rv ∧ s' = s.writeReg rv) ∨
          (∃ r, t = .readReg r ∧ s' = s.reply (.reg (s.readReg r))) ∨
          ∃ budget, t = .execute budget ∧ budget ≤ p.cycMax ∧ s' = s.enterExecute budget)) := by
  unfold State.transact at h
  cases hr : s.run <;> cases t <;> simp_all [turnedAway, State.perform]
  split at h <;> simp_all

/-- Everything a step that is taken can do. -/
theorem stepWith_cases {p : Params} {s s' : State} (h : stepWith p s = .next s') :
    (s.run = .running ∧ 0 < s.cyc ∧ exec (s.instrAtPc p) s = .next s') ∨
      (s.run = .running ∧ s.cyc ≤ 0 ∧ s' = s.leaveExecute) ∨
      (s.run ≠ .running ∧ s.host.script = [] ∧ s' = s) ∨
      (s.run ≠ .running ∧ ∃ t rest, s.host.script = t :: rest ∧ (s.withScript rest).transact p t = .next s') := by
  by_cases hr : s.run = .running
  · by_cases hc : 0 < s.cyc
    · exact .inl ⟨hr, hc, by rw [← stepWith_running p s hr hc, h]⟩
    · rw [stepWith_exhausted p s hr (by omega)] at h
      exact .inr (.inl ⟨hr, by omega, by simpa using h.symm⟩)
  · rw [stepWith_host p s hr] at h
    cases hs : s.host.script with
    | nil =>
      rw [State.hostTurn_nil p s hs] at h
      exact .inr (.inr (.inl ⟨hr, rfl, by simpa using h.symm⟩))
    | cons t rest =>
      rw [State.hostTurn_cons p s t rest hs] at h
      exact .inr (.inr (.inr ⟨hr, t, rest, rfl, h⟩))

end Sys2Proof.Machine
end

