-- ==== Sys2Proof/Tests/Slice0.lean ====
section
/-! SUPPORT. Tests on small states, with expected results from spec/95_test_vectors.md (named in each docstring), and one
witness per statement that has hypotheses. -/

namespace Sys2Proof.Tests

open Sys2Proof.Machine

/-! ### Helpers -/

/-- The state after `Reset`, with bytes written by the host. -/
def resetWith (cells : List (Word × Byte)) : State := cells.foldl (fun s c => s.memWrite c.1 c.2) State.reset

/-- An `Execute` in progress with the given counter. -/
def running (s : State) (cyc : Int) : State := s.enterExecute cyc

/-- The host about to issue the given transactions to a core in the given run state. -/
def hostWith (s : State) (run : RunState) (script : List Transaction) : State := { s with run := run }.withScript script

/-- One field of the state after one step. -/
def after {α : Type} (s : State) (field : State → α) : Option α := (nextState? (step s)).map field

/-! ### Well-formedness: the one check, refused for each bound opcode -/

theorem test_wf_unk_accepts : (Instr.unk 0x00).wf Config.params = true := by decide
theorem test_wf_unk_refuses_ldaIm : (Instr.unk 0xA9).wf Config.params = false := by decide
theorem test_wf_unk_refuses_ldaZp : (Instr.unk 0xA5).wf Config.params = false := by decide
theorem test_wf_unk_refuses_ldaZpx : (Instr.unk 0xB5).wf Config.params = false := by decide

/-! ### Decoding: words written out from 30_encoding.md R51 and R53, operand above opcode -/

/-- `LDA #$37`: opcode 1010 1001, operand 0011 0111 (95 S1). -/
theorem test_decode_ldaIm : decodeTableWord 16 0b0011011110101001 = some (.ldaIm 0x37) := by decide
/-- `LDA $42`: opcode 1010 0101, operand 0100 0010 (95 S2). -/
theorem test_decode_ldaZp : decodeTableWord 16 0b0100001010100101 = some (.ldaZp 0x42) := by decide
/-- `LDA $F0,X`: opcode 1011 0101, operand 1111 0000 (95 S3). -/
theorem test_decode_ldaZpx : decodeTableWord 16 0b1111000010110101 = some (.ldaZpx 0xF0) := by decide
/-- The neighbours of the bound opcodes are unknown (95 UK3, UK4). -/
theorem test_decode_unk : [0xA4, 0xA6, 0xA8, 0xAA, 0xB4, 0xB6].map (fun w => decodeTableWord 8 w) =
    [some (.unk 0xA4), some (.unk 0xA6), some (.unk 0xA8), some (.unk 0xAA), some (.unk 0xB4), some (.unk 0xB6)] := by decide
/-- A short table word: the operand byte is zero. -/
theorem test_decode_operand_zero : decodeTableWord 8 0xA9 = some (.ldaIm 0x00) := by decide
/-- A two-byte instruction without its operand is refused by name. -/
theorem test_decode_refuses : decode Config.params [] = .error .noOpcode ∧
    decode Config.params [0xB5] = .error .noOperand := ⟨rfl, rfl⟩
/-- Each constructor's encoding, byte by byte. -/
theorem test_encode : encode Config.params (.ldaIm 0x37) = [0xA9, 0x37] ∧
    encode Config.params (.ldaZp 0x42) = [0xA5, 0x42] ∧ encode Config.params (.ldaZpx 0xF0) = [0xB5, 0xF0] ∧
    encode Config.params (.unk 0x02) = [0x02] := by decide

/-! ### Instructions: at most two each -/

/-- 95 IM7: Z and N recomputed, the five other flags kept. -/
theorem test_ldaIm_flags :
    after (running { resetWith [(0xFFFC, 0xA9), (0xFFFD, 0x01)] with
      fC := true, fZ := true, fI := true, fD := true, fB := true, fV := true, fN := true } 2)
      (fun t => (t.a, [t.fC, t.fZ, t.fI, t.fD, t.fB, t.fV, t.fN], t.pc, t.cyc)) =
    some (0x01, [true, false, true, true, true, true, false], 0xFFFE, 0) := by decide
/-- 95 PW1: the instruction straddles the top of memory. -/
theorem test_ldaIm_straddles :
    after (running { resetWith [(0xFFFF, 0xA9), (0x0000, 0x5A)] with pc := 0xFFFF } 1) (fun t => (t.a, t.pc, t.cyc)) =
    some (0x5A, 0x0001, -1) := by decide
/-- 95 ZP4: the high byte of the address is zero, with decoys in pages 1 and FF. -/
theorem test_ldaZp_page_zero :
    after (running (resetWith [(0xFFFC, 0xA5), (0xFFFD, 0x10), (0x0010, 0x01), (0x0110, 0xFF), (0xFF10, 0xEE)]) 3)
      (fun t => (t.a, t.fZ, t.fN, t.pc, t.cyc)) = some (0x01, false, false, 0xFFFE, 0) := by decide
/-- 95 ZP8: code in the zero page reads itself. -/
theorem test_ldaZp_reads_code :
    after (running { resetWith [(0x0040, 0xA5), (0x0041, 0x40)] with pc := 0x0040 } 3)
      (fun t => (t.a, t.fZ, t.fN, t.pc)) = some (0xA5, false, true, 0x0042) := by decide
/-- 95 ZX2: the index sum wraps, with a decoy in page 1. -/
theorem test_ldaZpx_wraps :
    after (running { resetWith [(0xFFFC, 0xB5), (0xFFFD, 0xF0), (0x0110, 0xFF)] with x := 0x20 } 4)
      (fun t => (t.a, t.fZ, t.fN, t.x, t.cyc)) = some (0x00, true, false, 0x20, 0) := by decide
/-- 95 ZX4 with C and V set, from the least budget (B7): the sum writes no flag, the counter ends at -3. -/
theorem test_ldaZpx_overshoots :
    after (running { resetWith [(0xFFFC, 0xB5), (0xFFFD, 0xFF), (0x00FE, 0x01), (0x01FE, 0x22)] with
      x := 0xFF, fC := true, fV := true } 1)
      (fun t => (t.a, t.fC, t.fV, t.cyc)) = some (0x01, true, true, -3) := by decide
/-- 95 UK7: registers and flags survive, and the report carries opcode and address. -/
theorem test_unk_reports :
    after (running { resetWith [(0xFFFC, 0x02)] with a := 0x12, fZ := true, fN := true } 1)
      (fun t => (t.a, [t.fZ, t.fN], t.pc, t.diag)) =
    some (0x12, [true, true], 0xFFFD, [.unknownOpcode 0x02 0xFFFC]) := by decide
/-- 95 PW3: an unknown opcode at the top of memory. -/
theorem test_unk_wraps :
    after (running { resetWith [(0xFFFF, 0x02)] with pc := 0xFFFF } 1) (fun t => (t.pc, t.diag)) =
    some (0x0000, [.unknownOpcode 0x02 0xFFFF]) := by decide

/-! ### Primitives, host, placing a table word -/

/-- 95 PR5: the low byte from FFFF, the high byte from 0000. -/
theorem test_fetchWord_wraps :
    (running { resetWith [(0xFFFF, 0xCD), (0x0000, 0xAB)] with pc := 0xFFFF } 10).fetchWord.1 = 0xABCD ∧
    (running { resetWith [(0xFFFF, 0xCD), (0x0000, 0xAB)] with pc := 0xFFFF } 10).fetchWord.2.pc = 0x0001 := by decide
/-- 95 RS2: `Reset` clears memory, registers and flags. -/
theorem test_reset_clears :
    after (hostWith { resetWith [(0x1234, 0x56)] with a := 0x99, sp := 0x01FF, pc := 0x0300, fC := true } .idle [.reset])
      (fun t => (t.mem, t.a, [t.sp, t.pc], t.fC)) = some ([], 0x00, [0x0100, 0xFFFC], false) := by decide
/-- 95 RS5: before the first `Reset` every other transaction is refused. -/
theorem test_unreset_refuses :
    refusal? (step (hostWith State.reset .unreset [.execute 2])) = some .beforeReset := by decide
/-- 95 B13: the least budget that does not fit is refused. -/
theorem test_budget_refused :
    refusal? (step (hostWith State.reset .idle [.execute (2 ^ 31)])) = some .budgetTooLarge := by decide
/-- Writing the value an unlisted address reads as removes the cell (20_memory.md R31). -/
theorem test_memWrite_removes : ((resetWith [(0x0005, 0x77)]).memWrite 0x0005 0x00).mem = [] := by decide
/-- From reset with `LDA $42` placed, the next step runs it: the byte read is zero. -/
theorem test_withFetchWord_runs :
    after (State.reset.withFetchWord 16 0x42A5) (fun t => (t.a, t.fZ, t.pc, t.run)) =
    some (0x00, true, 0xFFFE, .running) := by decide

/-! ### Witnesses: for each statement with hypotheses, states and operands that meet all of them -/

/-- The default parameters, and another admitted choice at the least width. -/
theorem witness_params_ok : Config.params.Ok ∧ ({ opcLdaIm := 0x00, opcLdaZp := 0x01, opcLdaZpx := 0xFF, cycW := 4 } : Params).Ok := by
  decide

theorem witness_DecodeAfterEncode : Config.params.Ok ∧ (Instr.ldaIm 0xFF).wf Config.params = true ∧
    (Instr.ldaZp 0x00).wf Config.params = true ∧ (Instr.ldaZpx 0xFF).wf Config.params = true ∧
    (Instr.unk 0xFF).wf Config.params = true := by decide

theorem witness_EncodeAfterDecode : decode Config.params [0xB5, 0xFF, 0x01] = .ok (.ldaZpx 0xFF, [0x01]) ∧
    decode Config.params [0xFF, 0x01] = .ok (.unk 0xFF, [0x01]) := ⟨rfl, rfl⟩

/-- The three clauses: a bound opcode at the end of the list, a bound opcode with an operand, an unbound one. -/
theorem witness_LengthFromOpcodeAlone :
    ((0xB5 : Byte) = Config.params.opcLdaIm ∨ (0xB5 : Byte) = Config.params.opcLdaZp ∨ (0xB5 : Byte) = Config.params.opcLdaZpx) ∧
    ([] : List Byte) = [] ∧ [(0x00 : Byte)] ≠ [] ∧
    ¬((0xB4 : Byte) = Config.params.opcLdaIm ∨ (0xB4 : Byte) = Config.params.opcLdaZp ∨ (0xB4 : Byte) = Config.params.opcLdaZpx) := by
  decide

theorem witness_CanonicalMemoryIsUnique : ∃ m₁ m₂ : Memory, m₁ ≠ [] ∧ Memory.wf m₁ = true ∧ Memory.wf m₂ = true ∧
    ∀ addr : Nat, addr < 65536 → Memory.read m₁ addr = Memory.read m₂ addr :=
  ⟨[(0, 0x01), (65535, 0xFF)], [(0, 0x01), (65535, 0xFF)], by decide, by decide, by decide, fun _ _ => rfl⟩

theorem witness_MemWriteStoresOneByte : Memory.wf (resetWith [(0x0000, 0x01), (0xFFFF, 0xFF)]).mem = true ∧
    (0x0000 : Word) ≠ 0xFFFF := by decide

/-- A byte changes by the host's write, and by `Reset`. -/
theorem witness_MemoryChangesOnlyByHost :
    after (hostWith State.reset .idle [.writeMem 0xFFFF 0x01]) (fun t => t.memRead 0xFFFF) = some 0x01 ∧
    (hostWith State.reset .idle [.writeMem 0xFFFF 0x01]).memRead 0xFFFF = 0x00 ∧
    after (hostWith (resetWith [(0x0000, 0x01)]) .unreset [.reset]) (fun t => t.memRead 0x0000) = some 0x00 ∧
    (hostWith (resetWith [(0x0000, 0x01)]) .unreset [.reset]).memRead 0x0000 = 0x01 := by decide

/-- At both ends of the counter's range, at the default width and at the least one. -/
theorem witness_CounterNeverWraps : Config.params.Ok ∧ (running State.reset 1).run = .running ∧
    0 < (running State.reset 1).cyc ∧ (running State.reset 1).cyc ≤ Config.params.cycMax ∧
    0 < (running State.reset 7).cyc ∧
    (running State.reset 7).cyc ≤ ({ opcLdaIm := 0x00, opcLdaZp := 0x01, opcLdaZpx := 0xFF, cycW := 4 } : Params).cycMax := by
  decide

theorem witness_CounterStaysInItsWidth : Config.params.Ok ∧ CycFits Config.params (running State.reset 1) ∧
    BudgetsFit Config.params (running State.reset 1) ∧ ∃ t, stepWith Config.params (running State.reset 1) = .next t :=
  ⟨by decide, ⟨by decide, by decide⟩, fun _ h => absurd h (by simp [running, State.reset]), _, rfl⟩

/-- `LDA_IM` at PC with its operand, at the top of memory and with the least budget. -/
theorem witness_LdaImLoadsItsOperand : ∃ s : State, s.run = .running ∧ 0 < s.cyc ∧ s.pc = 0xFFFF ∧
    s.memRead s.pc = Config.params.opcLdaIm ∧ s.memRead (s.pc + 1) = 0x80 :=
  ⟨running { resetWith [(0xFFFF, 0xA9), (0x0000, 0x80)] with pc := 0xFFFF } 1, by decide⟩

theorem witness_LdaZpLoadsFromPageZero : ∃ s : State, s.run = .running ∧ 0 < s.cyc ∧
    s.memRead s.pc = Config.params.opcLdaZp ∧ s.memRead (s.pc + 1) = 0xFF ∧
    s.memRead (BitVec.ofNat 16 (0xFF : Byte).toNat) = 0x7F :=
  ⟨running (resetWith [(0xFFFC, 0xA5), (0xFFFD, 0xFF), (0x00FF, 0x7F)]) 1, by decide⟩

theorem witness_LdaZpxWrapsInPageZero : ∃ s : State, s.run = .running ∧ 0 < s.cyc ∧
    s.memRead s.pc = Config.params.opcLdaZpx ∧ s.memRead (s.pc + 1) = 0xFF ∧ s.x = 0x01 ∧
    s.memRead (BitVec.ofNat 16 (((0xFF : Byte).toNat + s.x.toNat) % 256)) = 0x99 :=
  ⟨running { resetWith [(0xFFFC, 0xB5), (0xFFFD, 0xFF), (0x0000, 0x99)] with x := 0x01 } 1, by decide⟩

theorem witness_UnkReportsAndGoesOn : (running State.reset 1).run = .running ∧ 0 < (running State.reset 1).cyc ∧
    (running State.reset 1).memRead 0xFFFC = 0x00 ∧ (0x00 : Byte) ≠ Config.params.opcLdaIm ∧
    (0x00 : Byte) ≠ Config.params.opcLdaZp ∧ (0x00 : Byte) ≠ Config.params.opcLdaZpx := by decide

/-- With the least budget, and with the least that leaves some. -/
theorem witness_UnkNeverEndsTheRun :
    decodeOpcode Config.params ((running State.reset 1).memRead (running State.reset 1).pc) = .unk ∧
    0 < (running State.reset 1).cyc ∧ 1 < (running State.reset 2).cyc ∧ (running State.reset 2).run = .running := by decide

theorem witness_loads_selected : (Instr.ldaIm 0x00).selection ≠ .unk ∧ (Instr.ldaZp 0x00).selection ≠ .unk ∧
    (Instr.ldaZpx 0x00).selection ≠ .unk := by decide

theorem witness_LoadsFrame : (Instr.ldaZpx 0xFF).selection ≠ .unk ∧ ∃ t, exec (.ldaZpx 0xFF) State.reset = .next t :=
  ⟨by decide, _, rfl⟩

theorem witness_UnkFrame : ∃ t, exec (.unk 0x00) State.reset = .next t := ⟨_, rfl⟩

/-- Two states that differ in everything no load reads. -/
theorem witness_LoadsReadOnlyPcXAndMemory : ∃ s₁ s₂ : State, s₁.a ≠ s₂.a ∧ s₁.fZ ≠ s₂.fZ ∧ s₁.sp ≠ s₂.sp ∧
    s₁.pc = s₂.pc ∧ s₁.x = s₂.x ∧ ∀ addr : Word, s₁.memRead addr = s₂.memRead addr :=
  ⟨State.reset, { State.reset with a := 0x99, fZ := true, sp := 0x01FF }, by decide, by decide, by decide, rfl, rfl,
    fun _ => rfl⟩

/-- Each way in which an inert flag changes. -/
theorem witness_InertFlagsHaveNoEffect : (running State.reset 0).run = .running ∧
    after (hostWith State.reset .idle [.writeReg (.flag .c true)]) (fun t => t.flag .c) = some true ∧
    (hostWith State.reset .idle [.writeReg (.flag .c true)]).flag .c = false ∧
    after (hostWith { State.reset with fV := true } .idle [.reset]) (fun t => t.flag .v) = some false := by decide

theorem witness_StepRunsTheDecodedInstruction : (running State.reset 1).run = .running ∧ 0 < (running State.reset 1).cyc ∧
    decode Config.params (running State.reset 1).bytesAtPc = .ok (.unk 0x00, [0x00]) := ⟨rfl, by decide, rfl⟩

theorem witness_StepIsThePseudocode : (running State.reset 1).run = .running ∧ 0 < (running State.reset 1).cyc := by decide

/-- A budget that runs nothing, and the largest. -/
theorem witness_ExecuteIsTheLoop :
    (hostWith State.reset .idle [.execute (-1)]).run = .idle ∧
    (hostWith State.reset .idle [.execute (-1)]).host.script = [.execute (-1)] ∧ (-1 : Int) ≤ Config.params.cycMax ∧
    (hostWith State.reset .idle [.execute Config.params.cycMax]).host.script = [.execute Config.params.cycMax] ∧
    Config.params.cycMax ≤ Config.params.cycMax := by decide

theorem witness_ExecuteTerminates :
    (hostWith State.reset .idle [.execute 1]).run = .idle ∧
    (hostWith State.reset .idle [.execute 1]).host.script = [.execute 1] ∧ (1 : Int) ≤ 1 ∧
    (hostWith State.reset .idle [.execute Config.params.cycMax]).host.script = [.execute Config.params.cycMax] ∧
    (1 : Int) ≤ Config.params.cycMax ∧ Config.params.cycMax ≤ Config.params.cycMax := by decide

/-- A first budget that is the exact cost of what it runs. -/
theorem witness_SplitExecute : (0 : Int) ≤ 0 ∧ (State.reset.executeWhole Config.params 2).cyc = 0 := by decide

/-- For each load, the least and the largest budget of its clause. -/
theorem witness_ExecuteOfOneLoad : Config.params.Ok ∧ (1 : Int) ≤ 1 ∧ (1 : Int) ≤ 2 ∧ (1 : Int) ≤ 3 ∧ (1 : Int) ≤ 4 ∧
    (resetWith [(0xFFFC, 0xA9)]).memRead 0xFFFC = Config.params.opcLdaIm ∧
    (resetWith [(0xFFFC, 0xA5)]).memRead 0xFFFC = Config.params.opcLdaZp ∧
    (resetWith [(0xFFFC, 0xB5)]).memRead 0xFFFC = Config.params.opcLdaZpx := by decide

/-- Both sides of the loop test. -/
theorem witness_OnlyTheBudgetEndsARun : (running State.reset 1).run = .running ∧ 0 < (running State.reset 1).cyc ∧
    (running State.reset 0).run = .running ∧ (running State.reset 0).cyc ≤ 0 := by decide

theorem witness_ExecuteOfNothing :
    (hostWith State.reset .idle [.execute 0]).run = .idle ∧
    (hostWith State.reset .idle [.execute 0]).host.script = [.execute 0] ∧ (0 : Int) ≤ 0 ∧
    (hostWith State.reset .idle [.execute (-5)]).host.script = [.execute (-5)] ∧ (-5 : Int) ≤ 0 := by decide

/-- One step of each kind that changes the run state. -/
theorem witness_RunStateTransitions :
    after (hostWith State.reset .unreset [.reset]) (·.run) = some .idle ∧
    after (hostWith State.reset .idle [.reset]) (·.run) = some .idle ∧
    after (hostWith State.reset .idle [.execute Config.params.cycMax]) (·.run) = some .running ∧
    after (running State.reset 0) (·.run) = some .idle := by decide

theorem witness_EveryStepKeepsInv : MachineInv Config.params (running State.reset Config.params.cycMax) ∧
    (∃ t, stepWith Config.params (running State.reset Config.params.cycMax) = .next t) ∧
    ∃ t, Sys2Proof.Machine.step (running State.reset Config.params.cycMax) = .next t :=
  ⟨⟨rfl, fun _ => by decide⟩, ⟨_, rfl⟩, _, rfl⟩

/-- A register that no instruction writes, changed by the host and by `Reset`. -/
theorem witness_RegistersNoInstructionWrites :
    after (hostWith State.reset .idle [.writeReg (.narrow .x 0x20)]) (fun t => t.readReg (.narrow .x)) =
      some (.narrow .x 0x20) ∧
    (hostWith State.reset .idle [.writeReg (.narrow .x 0x20)]).readReg (.narrow .x) = .narrow .x 0x00 ∧
    after (hostWith { State.reset with sp := 0x01FF } .idle [.reset]) (fun t => t.readReg (.wide .sp)) =
      some (.wide .sp 0x0100) := by decide

theorem witness_TracesDoNotInterfere : ∃ s t : State, s ≠ t ∧ s.withoutTraces = t.withoutTraces :=
  ⟨State.reset, { State.reset with diag := [.unknownOpcode 0x00 0xFFFC] }, by decide, by decide⟩

theorem witness_ResetLeavesTheResetState :
    (hostWith State.reset .unreset [.reset]).run = .unreset ∧ (hostWith State.reset .idle [.reset]).run = .idle ∧
    (hostWith State.reset .idle [.reset]).host.script = [.reset] := by decide

theorem witness_ResetIsIdempotent : ∃ s₁ s₂ : State, s₁ ≠ s₂ ∧ s₁.host = s₂.host :=
  ⟨State.reset, resetWith [(0x1234, 0x56)], by decide, by decide⟩

/-- Each clause, the budgets at the two sides of the largest one. -/
theorem witness_AcceptanceByRunState :
    refusal? (step (hostWith State.reset .unreset [.readMem 0xFFFF])) = some .beforeReset ∧
    (after (hostWith State.reset .unreset [.reset]) (·.run)).isSome ∧
    (after (hostWith State.reset .idle [.execute Config.params.cycMax]) (·.cyc)).isSome ∧
    refusal? (step (hostWith State.reset .idle [.execute (Config.params.cycMax + 1)])) = some .budgetTooLarge ∧
    refusal? (State.transact Config.params .reset (running State.reset 1)) = some .whileRunning := by decide

theorem witness_HostWriteMemStoresOneByte : ∃ s : State, Memory.wf s.mem = true ∧ s.run = .idle ∧
    s.host.script = [.writeMem 0xFFFF 0x00] :=
  ⟨hostWith (resetWith [(0xFFFF, 0x01)]) .idle [.writeMem 0xFFFF 0x00], by decide⟩

theorem witness_HostWriteRegSetsOneRegister :
    [RegValue.wide .sp 0xFFFF, .narrow .y 0xFF, .flag .n true].all (fun rv =>
      (hostWith State.reset .idle [.writeReg rv]).run == .idle &&
        (hostWith State.reset .idle [.writeReg rv]).host.script == [.writeReg rv]) = true := by decide

theorem witness_HostReadsAnswerTheCurrentValue :
    (hostWith State.reset .idle [.readMem 0x8001]).run = .idle ∧
    (hostWith State.reset .idle [.readMem 0x8001]).host.script = [.readMem 0x8001] ∧
    (hostWith State.reset .idle [.readReg (.flag .n)]).run = .idle ∧
    (hostWith State.reset .idle [.readReg (.flag .n)]).host.script = [.readReg (.flag .n)] := by decide

/-- PC at the top of memory, so that the second byte goes to address 0. -/
theorem witness_HostWritesAreFetched : ∃ s : State, Memory.wf s.mem = true ∧ s.run = .idle ∧ (1 : Int) ≤ Config.params.cycMax ∧
    s.pc = 0xFFFF ∧ s.host.script = [.writeMem s.pc 0xA9, .writeMem (s.pc + 1) 0x5A, .execute 1] :=
  ⟨hostWith { State.reset with pc := 0xFFFF } .idle [.writeMem 0xFFFF 0xA9, .writeMem 0x0000 0x5A, .execute 1], by decide⟩

theorem witness_WaitingChangesNothing : State.reset.run ≠ .running ∧ State.reset.host.script = [] := by decide

end Sys2Proof.Tests
end

section
/-! PROOFS. The instructions: what each arm of `exec` answers, and what every instruction keeps. -/

namespace Sys2Proof.Machine

/-! ### The arms of `exec` -/

@[simp] theorem exec_ldaIm (m : Byte) (s : State) : exec (.ldaIm m) s = .next (s.passByte.passByte.loadA m) := rfl

@[simp] theorem exec_ldaZp (m : Byte) (s : State) :
    exec (.ldaZp m) s = .next (s.passByte.passByte.loadAFrom (eaZeroPage m)) := rfl

@[simp] theorem exec_ldaZpx (m : Byte) (s : State) :
    exec (.ldaZpx m) s = .next (s.passByte.passByte.charge.loadAFrom (eaZeroPageX m s.x)) := rfl

@[simp] theorem exec_unk (op : Byte) (s : State) :
    exec (.unk op) s = .next (s.passByte.raiseUnknownOpcode op s.pc) := rfl

/-- Every instruction completes (60_exceptions.md R117). -/
theorem exec_total (i : Instr) (s : State) : ∃ t, exec i s = .next t := by
  cases i <;> exact ⟨_, rfl⟩

/-! ### The end of a load -/

@[simp] theorem State.loadA_pc (s : State) (v : Byte) : (s.loadA v).pc = s.pc := rfl

@[simp] theorem State.loadAFrom_pc (s : State) (ea : Word) : (s.loadAFrom ea).pc = s.pc := rfl

theorem State.loadA_frame (s : State) (v : Byte) :
    SameHostOnly s (s.loadA v) ∧ (s.loadA v).run = s.run ∧ (s.loadA v).host = s.host := by
  simp [SameHostOnly, State.loadA]

theorem State.loadAFrom_frame (s : State) (ea : Word) :
    SameHostOnly s (s.loadAFrom ea) ∧ (s.loadAFrom ea).run = s.run ∧ (s.loadAFrom ea).host = s.host := by
  simpa [State.loadAFrom, SameHostOnly] using s.charge.loadA_frame (s.memRead ea)

/-! ### The frame of every instruction -/

/-- No instruction writes SP, X, Y, an inert flag, memory, the run state or the host (70_reset_and_hazards.md R145). -/
theorem exec_frame {i : Instr} {s t : State} (h : exec i s = .next t) :
    SameHostOnly s t ∧ t.run = s.run ∧ t.host = s.host := by
  cases i with
  | ldaIm m => cases h; simpa [SameHostOnly] using s.passByte.passByte.loadA_frame m
  | ldaZp m => cases h; simpa [SameHostOnly] using s.passByte.passByte.loadAFrom_frame (eaZeroPage m)
  | ldaZpx m => cases h; simpa [SameHostOnly] using s.passByte.passByte.charge.loadAFrom_frame (eaZeroPageX m s.x)
  | unk op => cases h; simp [SameHostOnly]

theorem exec_run {i : Instr} {s t : State} (h : exec i s = .next t) : t.run = s.run := (exec_frame h).2.1

/-! ### PC -/

@[simp] theorem length_ldaIm (m : Byte) : (Instr.ldaIm m).length = 2 := rfl

@[simp] theorem length_ldaZp (m : Byte) : (Instr.ldaZp m).length = 2 := rfl

@[simp] theorem length_ldaZpx (m : Byte) : (Instr.ldaZpx m).length = 2 := rfl

@[simp] theorem length_unk (op : Byte) : (Instr.unk op).length = 1 := rfl

/-- Counting in naturals and then taking 16 bits is counting modulo 2^16. -/
theorem ofNat_toNat_add (w : Word) (n : Nat) : BitVec.ofNat 16 (w.toNat + n) = w + BitVec.ofNat 16 n := by
  simp [BitVec.ofNat_add]

/-- An instruction leaves PC past its own bytes (40_fetch_execute.md R81). -/
theorem exec_pc {i : Instr} {s t : State} (h : exec i s = .next t) : t.pc = s.pc + BitVec.ofNat 16 i.length := by
  cases i with
  | ldaIm m => cases h; simp [BitVec.add_assoc]
  | ldaZp m => cases h; simp [BitVec.add_assoc]
  | ldaZpx m => cases h; simp [BitVec.add_assoc]
  | unk op => cases h; simp

/-- Settles O26: PC passes the opcode byte and the operand byte of the load. -/
theorem pcAdvancesByLength : Obligations.PcAdvancesByLength := by
  unfold Obligations.PcAdvancesByLength
  intro i s
  obtain ⟨t, ht⟩ := exec_total i s
  exact ⟨t, ht, by rw [exec_pc ht, ofNat_toNat_add]⟩

end Sys2Proof.Machine
end

section
/-! PROOFS. The host's move: which transaction each run state accepts, and what a step of a waiting core is. -/

namespace Sys2Proof.Machine

/-! ### A transaction, by run state (42_blocks_and_host_interface.md R104) -/

theorem State.transact_unreset {s : State} (p : Params) {x : Transaction} (hr : s.run = .unreset) (hx : x ≠ .reset) :
    s.transact p x = .refused .beforeReset := by
  cases x <;> simp_all [State.transact, turnedAway]

theorem State.transact_running {s : State} (p : Params) (x : Transaction) (hr : s.run = .running) :
    s.transact p x = .refused .whileRunning := by
  simp [State.transact, turnedAway, hr]

theorem State.transact_idle {s : State} (p : Params) (x : Transaction) (hr : s.run = .idle) :
    s.transact p x = s.perform p x := by
  simp [State.transact, turnedAway, hr]

theorem State.transact_reset {s : State} (p : Params) (hr : s.run ≠ .running) :
    s.transact p .reset = .next (s.resetMachine p) := by
  cases h : s.run <;> simp_all [State.transact, turnedAway, State.perform]

/-! ### An `Execute`, by budget (40_fetch_execute.md R75) -/

theorem State.perform_execute {p : Params} (s : State) {budget : Int} (hb : budget ≤ p.cycMax) :
    s.perform p (.execute budget) = .next (s.enterExecute budget) := by
  simp [State.perform, hb]

theorem State.perform_execute_tooLarge {p : Params} (s : State) {budget : Int} (hb : p.cycMax < budget) :
    s.perform p (.execute budget) = .refused .budgetTooLarge := by
  simp [State.perform, hb]

/-- Nothing but a budget can make an accepted transaction fail. -/
theorem State.perform_total {p : Params} (s : State) {x : Transaction} (hx : ∀ b, x = .execute b → b ≤ p.cycMax) :
    ∃ t, s.perform p x = .next t := by
  cases x with
  | execute budget => exact ⟨_, s.perform_execute (hx budget rfl)⟩
  | _ => exact ⟨_, rfl⟩

/-! ### The step of a core that is not running -/

theorem stepWith_cons {p : Params} {s : State} {x : Transaction} {rest : List Transaction} (hr : s.run ≠ .running)
    (hs : s.host.script = x :: rest) : stepWith p s = (s.withScript rest).transact p x := by
  rw [stepWith_host p s hr, State.hostTurn_cons p s x rest hs]

theorem stepWith_reset {p : Params} {s : State} {rest : List Transaction} (hr : s.run ≠ .running)
    (hs : s.host.script = .reset :: rest) : stepWith p s = .next ((s.withScript rest).resetMachine p) :=
  (stepWith_cons hr hs).trans (State.transact_reset p hr)

theorem stepWith_idle {p : Params} {s : State} {x : Transaction} {rest : List Transaction} (hr : s.run = .idle)
    (hs : s.host.script = x :: rest) : stepWith p s = (s.withScript rest).perform p x :=
  (stepWith_cons (by simp [hr]) hs).trans (State.transact_idle p x hr)

/-- Settles O48. -/
theorem waitingChangesNothing : Obligations.WaitingChangesNothing := by
  unfold Obligations.WaitingChangesNothing
  intro p s hr hs
  rw [stepWith_host p s hr, State.hostTurn_nil p s hs]

/-- Settles O43: the table of run states and transactions, line by line. -/
theorem acceptanceByRunState : Obligations.AcceptanceByRunState := by
  unfold Obligations.AcceptanceByRunState
  intro p s x rest hs
  refine ⟨?unresetOther, ?unresetReset, ?idleAccepts, ?idleTooLarge, ?running⟩
  case unresetOther =>
    intro hr hx
    exact (stepWith_cons (by simp [hr]) hs).trans (State.transact_unreset p hr hx)
  case unresetReset =>
    rintro hr rfl
    exact ⟨_, stepWith_reset (by simp [hr]) hs⟩
  case idleAccepts =>
    intro hr hx
    rw [stepWith_idle hr hs]
    exact State.perform_total _ hx
  case idleTooLarge =>
    rintro b hr rfl hb
    rw [stepWith_idle hr hs, State.perform_execute_tooLarge _ hb]
  case running => exact State.transact_running p x

end Sys2Proof.Machine
end

section
/-! PROOFS. The run state (10_state.md R21). -/

namespace Sys2Proof.Machine

@[simp] theorem State.resetMachine_run (p : Params) (s : State) : (s.resetMachine p).run = .idle := rfl

@[simp] theorem State.writeReg_run (s : State) (rv : RegValue) : (s.writeReg rv).run = s.run := by
  obtain ⟨_, hrun, _⟩ := s.writeReg_rest rv
  exact hrun

/-- Of the transactions that are carried out, `Reset` and `Execute` alone set the run state. -/
theorem State.transact_run {p : Params} {x : Transaction} {s t : State} (h : s.transact p x = .next t) :
    (x = .reset ∧ t.run = .idle) ∨ (s.run = .idle ∧ t.run = .running ∧ ∃ b, x = .execute b) ∨ t.run = s.run := by
  obtain ⟨rfl, -, rfl⟩ | ⟨hr, hx⟩ := State.transact_cases h
  · exact .inl ⟨rfl, rfl⟩
  · obtain ⟨addr, v, -, rfl⟩ | ⟨addr, -, rfl⟩ | ⟨rv, -, rfl⟩ | ⟨r, -, rfl⟩ | ⟨b, rfl, -, rfl⟩ := hx
    · exact .inr (.inr (s.memWrite_run addr v))
    · exact .inr (.inr (s.reply_run _))
    · exact .inr (.inr (s.writeReg_run rv))
    · exact .inr (.inr (s.reply_run _))
    · exact .inr (.inl ⟨hr, rfl, b, rfl⟩)

/-- Every change of the run state is one of the three that R21 lists. -/
theorem stepWith_run {p : Params} {s t : State} (h : stepWith p s = .next t) :
    t.run = s.run ∨
      (s.run = .unreset ∧ t.run = .idle ∧ ∃ rest, s.host.script = .reset :: rest) ∨
      (s.run = .idle ∧ t.run = .running ∧ ∃ b rest, s.host.script = .execute b :: rest) ∨
      (s.run = .running ∧ t.run = .idle ∧ s.cyc ≤ 0) := by
  obtain ⟨-, -, he⟩ | ⟨hr, hc, rfl⟩ | ⟨-, -, rfl⟩ | ⟨hr, x, rest, hs, hx⟩ := stepWith_cases h
  · exact .inl (exec_run he)
  · exact .inr (.inr (.inr ⟨hr, rfl, hc⟩))
  · exact .inl rfl
  · obtain ⟨rfl, ht⟩ | ⟨hi, ht, b, rfl⟩ | ht := State.transact_run hx
    · cases hu : s.run with
      | unreset => exact .inr (.inl ⟨rfl, ht, rest, hs⟩)
      | idle => exact .inl ht
      | running => exact absurd hu hr
    · exact .inr (.inr (.inl ⟨hi, ht, b, rest, hs⟩))
    · exact .inl ht

/-- Settles O36: `stepWith_run` for the list, and one step of each kind for its converse. -/
theorem runStateTransitions : Obligations.RunStateTransitions := by
  unfold Obligations.RunStateTransitions
  refine ⟨fun p s t => stepWith_run, ?reset, ?execute, ?exhausted⟩
  case reset =>
    intro p s rest hr hs
    have hnot : s.run ≠ .running := by rcases hr with hr | hr <;> simp [hr]
    exact ⟨_, stepWith_reset hnot hs, rfl⟩
  case execute =>
    intro p s b rest hr hs hb
    exact ⟨_, by rw [stepWith_idle hr hs, State.perform_execute _ hb], rfl⟩
  case exhausted =>
    intro p s hr hc
    exact ⟨_, stepWith_exhausted p s hr hc, rfl⟩

end Sys2Proof.Machine
end

section
/-! PROOFS. The inert flags C, I, D, B and V (10_state.md R18). -/

namespace Sys2Proof.Machine

/-- The five flags that R18 lists, which no instruction drives. -/
def Flag.Inert (f : Flag) : Prop := f = .c ∨ f = .i ∨ f = .d ∨ f = .b ∨ f = .v

/-! ### Reading a flag after an update that leaves the flags -/

@[simp] theorem State.flag_leaveExecute (s : State) (f : Flag) : s.leaveExecute.flag f = s.flag f := by
  cases f <;> rfl

@[simp] theorem State.flag_enterExecute (s : State) (budget : Int) (f : Flag) :
    (s.enterExecute budget).flag f = s.flag f := by
  cases f <;> rfl

@[simp] theorem State.flag_withScript (s : State) (rest : List Transaction) (f : Flag) :
    (s.withScript rest).flag f = s.flag f := by
  cases f <;> rfl

@[simp] theorem State.flag_memWrite (s : State) (addr : Word) (v : Byte) (f : Flag) :
    (s.memWrite addr v).flag f = s.flag f := by
  cases f <;> rfl

@[simp] theorem State.flag_reply (s : State) (r : Reply) (f : Flag) : (s.reply r).flag f = s.flag f := by
  cases f <;> rfl

/-- The host's write of a register changes a flag only where it names that flag. -/
theorem State.flag_writeReg_ne {s : State} {rv : RegValue} {f : Flag} (h : (s.writeReg rv).flag f ≠ s.flag f) :
    ∃ v, rv = .flag f v := by
  cases rv with
  | wide r v => cases r <;> cases f <;> exact absurd rfl h
  | narrow r v => cases r <;> cases f <;> exact absurd rfl h
  | flag g v =>
    by_cases hg : g = f
    · exact ⟨v, by rw [hg]⟩
    · exact absurd (by simp [State.writeReg, hg]) h

/-- A transaction that changes a flag is `Reset` or the host's write of that flag. -/
theorem State.transact_flag_ne {p : Params} {x : Transaction} {s t : State} {f : Flag} (h : s.transact p x = .next t)
    (hf : t.flag f ≠ s.flag f) : x = .reset ∨ ∃ v, x = .writeReg (.flag f v) := by
  obtain ⟨rfl, -, -⟩ | ⟨-, hx⟩ := State.transact_cases h
  · exact .inl rfl
  · obtain ⟨addr, v, -, rfl⟩ | ⟨addr, -, rfl⟩ | ⟨rv, rfl, rfl⟩ | ⟨r, -, rfl⟩ | ⟨b, -, -, rfl⟩ := hx
    · exact absurd (s.flag_memWrite addr v f) hf
    · exact absurd (s.flag_reply _ f) hf
    · obtain ⟨v, rfl⟩ := State.flag_writeReg_ne hf
      exact .inr ⟨v, rfl⟩
    · exact absurd (s.flag_reply _ f) hf
    · exact absurd (s.flag_enterExecute b f) hf

/-! ### Writing a flag commutes with what an instruction does -/

@[simp] theorem State.setFlag_pc (s : State) (f : Flag) (v : Bool) : (s.setFlag f v).pc = s.pc := by
  cases f <;> rfl

@[simp] theorem State.setFlag_x (s : State) (f : Flag) (v : Bool) : (s.setFlag f v).x = s.x := by
  cases f <;> rfl

@[simp] theorem State.setFlag_memRead (s : State) (f : Flag) (v : Bool) (loc : Word) :
    (s.setFlag f v).memRead loc = s.memRead loc := by
  cases f <;> rfl

@[simp] theorem State.setFlag_charge (s : State) (f : Flag) (v : Bool) :
    (s.setFlag f v).charge = s.charge.setFlag f v := by
  cases f <;> rfl

@[simp] theorem State.setFlag_passByte (s : State) (f : Flag) (v : Bool) :
    (s.setFlag f v).passByte = s.passByte.setFlag f v := by
  cases f <;> rfl

@[simp] theorem State.setFlag_raiseUnknownOpcode (s : State) (f : Flag) (v : Bool) (op : Byte) (opaddr : Word) :
    (s.setFlag f v).raiseUnknownOpcode op opaddr = (s.raiseUnknownOpcode op opaddr).setFlag f v := by
  cases f <;> rfl

section
variable {f : Flag} (hf : f.Inert)
include hf

/-- A load overwrites Z and N, so here, and here alone, the flag has to be an inert one. -/
theorem State.setFlag_loadA (s : State) (v : Bool) (b : Byte) :
    (s.setFlag f v).loadA b = (s.loadA b).setFlag f v := by
  rcases hf with rfl | rfl | rfl | rfl | rfl <;> rfl

theorem State.setFlag_loadAFrom (s : State) (v : Bool) (ea : Word) :
    (s.setFlag f v).loadAFrom ea = (s.loadAFrom ea).setFlag f v := by
  simp [State.loadAFrom, State.setFlag_loadA hf]

/-- An instruction does the same with an inert flag at any value. -/
theorem exec_setFlag {i : Instr} {s t : State} (v : Bool) (h : exec i s = .next t) :
    exec i (s.setFlag f v) = .next (t.setFlag f v) := by
  cases i with
  | ldaIm m => cases h; simp [State.setFlag_loadA hf]
  | ldaZp m => cases h; simp [State.setFlag_loadAFrom hf]
  | ldaZpx m => cases h; simp [State.setFlag_loadAFrom hf]
  | unk op => cases h; simp

theorem SameHostOnly.flag {s t : State} (h : SameHostOnly s t) : t.flag f = s.flag f := by
  obtain ⟨-, -, -, hC, hI, hD, hB, hV, -⟩ := h
  rcases hf with rfl | rfl | rfl | rfl | rfl
  exacts [hC, hI, hD, hB, hV]

/-- No instruction writes an inert flag. -/
theorem exec_flag {i : Instr} {s t : State} (h : exec i s = .next t) : t.flag f = s.flag f := by
  obtain ⟨hsame, -⟩ := exec_frame h
  exact hsame.flag hf

/-- A running core completes its step, and leaves the inert flags. -/
theorem stepWith_running_flag (p : Params) {s : State} (hr : s.run = .running) :
    ∃ t, stepWith p s = .next t ∧ t.flag f = s.flag f := by
  by_cases hc : 0 < s.cyc
  · obtain ⟨t, ht⟩ := exec_total (s.instrAtPc p) s
    exact ⟨t, by rw [stepWith_running p s hr hc, ht], exec_flag hf ht⟩
  · exact ⟨_, stepWith_exhausted p s hr (by omega), by simp⟩

/-- A step that changes an inert flag is the host's `Reset` or its write of that flag. -/
theorem stepWith_flag_ne {p : Params} {s t : State} (h : stepWith p s = .next t) (hne : t.flag f ≠ s.flag f) :
    ∃ rest, s.host.script = .reset :: rest ∨ ∃ v, s.host.script = .writeReg (.flag f v) :: rest := by
  obtain ⟨-, -, he⟩ | ⟨-, -, rfl⟩ | ⟨-, -, rfl⟩ | ⟨-, x, rest, hs, hx⟩ := stepWith_cases h
  · exact absurd (exec_flag hf he) hne
  · exact absurd (by simp) hne
  · exact absurd rfl hne
  · refine ⟨rest, ?_⟩
    obtain rfl | ⟨v, rfl⟩ := State.transact_flag_ne hx (by simpa using hne)
    · exact .inl hs
    · exact .inr ⟨v, hs⟩

end

/-- Settles O27: writing an inert flag commutes with every instruction, and of all the updates a step can make only
`Reset` and the host's write of the flag reach it. -/
theorem inertFlagsHaveNoEffect : Obligations.InertFlagsHaveNoEffect := by
  unfold Obligations.InertFlagsHaveNoEffect
  intro f hf
  refine ⟨fun i s v => ?_, fun p s => stepWith_running_flag hf p, fun p s t => stepWith_flag_ne hf⟩
  obtain ⟨t, ht⟩ := exec_total i s
  exact ⟨t, ht, exec_setFlag hf v ht, exec_flag hf ht⟩

end Sys2Proof.Machine
end

section
/-! PROOFS. The two traces, `DIAG` and the host's replies, are read by no step (10_state.md R24). Each operation gives the
same outcome, traces aside, from a state and from that state with its traces emptied; so it does from any two states that
agree but for them. -/

namespace Sys2Proof.Machine

theorem exec_withoutTraces (i : Instr) (s : State) :
    withoutTraces (exec i s.withoutTraces) = withoutTraces (exec i s) := by
  cases i <;> rfl

theorem writeReg_withoutTraces (s : State) (rv : RegValue) :
    (s.withoutTraces.writeReg rv).withoutTraces = (s.writeReg rv).withoutTraces := by
  cases rv with
  | wide r v => cases r <;> rfl
  | narrow r v => cases r <;> rfl
  | flag f v => cases f <;> rfl

theorem perform_withoutTraces (p : Params) (s : State) (x : Transaction) :
    withoutTraces (s.withoutTraces.perform p x) = withoutTraces (s.perform p x) := by
  cases x with
  | writeReg rv => exact congrArg Host.Outcome.next (writeReg_withoutTraces s rv)
  | execute budget =>
    by_cases hb : budget ≤ p.cycMax
    · rw [State.perform_execute _ hb, State.perform_execute _ hb]; rfl
    · rw [State.perform_execute_tooLarge _ (by omega), State.perform_execute_tooLarge _ (by omega)]
  | _ => rfl

theorem transact_withoutTraces (p : Params) (s : State) (x : Transaction) :
    withoutTraces (s.withoutTraces.transact p x) = withoutTraces (s.transact p x) := by
  have hrun : s.withoutTraces.run = s.run := rfl
  unfold State.transact
  rw [hrun]
  cases turnedAway s.run x with
  | none => exact perform_withoutTraces p s x
  | some r => rfl

theorem hostTurn_withoutTraces (p : Params) (s : State) :
    withoutTraces (s.withoutTraces.hostTurn p) = withoutTraces (s.hostTurn p) := by
  have hscript : s.withoutTraces.host.script = s.host.script := rfl
  cases hs : s.host.script with
  | nil => rw [State.hostTurn_nil p s hs, State.hostTurn_nil p _ (hscript.trans hs)]; rfl
  | cons x rest =>
    rw [State.hostTurn_cons p s x rest hs, State.hostTurn_cons p _ x rest (hscript.trans hs)]
    exact transact_withoutTraces p (s.withScript rest) x

theorem stepWith_withoutTraces (p : Params) (s : State) :
    withoutTraces (stepWith p s.withoutTraces) = withoutTraces (stepWith p s) := by
  by_cases hr : s.run = .running
  · by_cases hc : 0 < s.cyc
    · rw [stepWith_running p s hr hc, stepWith_running p s.withoutTraces hr hc]
      exact exec_withoutTraces (s.instrAtPc p) s
    · rw [stepWith_exhausted p s hr (by omega), stepWith_exhausted p s.withoutTraces hr (Int.not_lt.mp hc)]
      rfl
  · rw [stepWith_host p s hr, stepWith_host p s.withoutTraces hr]
    exact hostTurn_withoutTraces p s

/-- Settles O40: both outcomes are that of the common state without traces. -/
theorem tracesDoNotInterfere : Obligations.TracesDoNotInterfere := by
  unfold Obligations.TracesDoNotInterfere
  intro p s t hst
  calc withoutTraces (stepWith p s)
      = withoutTraces (stepWith p s.withoutTraces) := (stepWith_withoutTraces p s).symm
    _ = withoutTraces (stepWith p t.withoutTraces) := by rw [hst]
    _ = withoutTraces (stepWith p t) := stepWith_withoutTraces p t

end Sys2Proof.Machine
end

section
/-! PROOFS. Canonical memories that read alike are equal (20_memory.md R30, R31). -/

namespace Sys2Proof.Machine

/-- The two memories read alike at every address of the machine. -/
def Memory.ReadsAlike (m₁ m₂ : Memory) : Prop :=
  ∀ addr : Nat, addr < 65536 → Memory.read m₁ addr = Memory.read m₂ addr

theorem Memory.ReadsAlike.symm {m₁ m₂ : Memory} (h : Memory.ReadsAlike m₁ m₂) : Memory.ReadsAlike m₂ m₁ :=
  fun addr ha => (h addr ha).symm

/-- The first cell of a canonical memory shows in what is read, so a memory listing higher addresses alone reads
otherwise. -/
theorem Memory.not_readsAlike_of_head_lt {k : Nat} {b : Byte} {rest m : Memory}
    (hw : Memory.wf ((k, b) :: rest) = true) (hm : ∀ c ∈ m, k < c.1) : ¬ Memory.ReadsAlike ((k, b) :: rest) m := by
  obtain ⟨hk, hb, -, -⟩ := (Memory.wf_cons k b rest).mp hw
  intro h
  have hread : b = Memory.unlisted := by simpa [Memory.read_of_lt m k hm] using h k hk
  exact hb hread

/-- Every address listed by a canonical memory is at least the first one. -/
theorem Memory.head_le {k : Nat} {b : Byte} {rest : Memory} (hw : Memory.wf ((k, b) :: rest) = true) :
    ∀ c ∈ (k, b) :: rest, k ≤ c.1 := by
  obtain ⟨-, -, hlt, -⟩ := (Memory.wf_cons k b rest).mp hw
  intro c hc
  rcases List.mem_cons.mp hc with rfl | hc
  · exact Nat.le_refl _
  · exact Nat.le_of_lt (hlt c hc)

theorem Memory.head_le_of_readsAlike {k₁ k₂ : Nat} {b₁ b₂ : Byte} {r₁ r₂ : Memory}
    (hw₁ : Memory.wf ((k₁, b₁) :: r₁) = true) (hw₂ : Memory.wf ((k₂, b₂) :: r₂) = true)
    (h : Memory.ReadsAlike ((k₁, b₁) :: r₁) ((k₂, b₂) :: r₂)) : k₂ ≤ k₁ := by
  by_contra hlt
  refine Memory.not_readsAlike_of_head_lt hw₁ (fun c hc => ?_) h
  have := Memory.head_le hw₂ c hc
  omega

/-- Behind a first cell for one address, canonical memories that read alike go on reading alike: the rest of neither lists
that address. -/
theorem Memory.ReadsAlike.tail {k : Nat} {b₁ b₂ : Byte} {r₁ r₂ : Memory}
    (hw₁ : Memory.wf ((k, b₁) :: r₁) = true) (hw₂ : Memory.wf ((k, b₂) :: r₂) = true)
    (h : Memory.ReadsAlike ((k, b₁) :: r₁) ((k, b₂) :: r₂)) : Memory.ReadsAlike r₁ r₂ := by
  obtain ⟨-, -, hlt₁, -⟩ := (Memory.wf_cons k b₁ r₁).mp hw₁
  obtain ⟨-, -, hlt₂, -⟩ := (Memory.wf_cons k b₂ r₂).mp hw₂
  intro addr ha
  by_cases hk : k = addr
  · subst hk
    rw [Memory.read_of_lt r₁ k hlt₁, Memory.read_of_lt r₂ k hlt₂]
  · simpa [hk] using h addr ha

/-- Canonical memories that read alike have the same first cell, and so on to the end. -/
theorem Memory.eq_of_readsAlike : ∀ m₁ m₂ : Memory, Memory.wf m₁ = true → Memory.wf m₂ = true →
    Memory.ReadsAlike m₁ m₂ → m₁ = m₂
  | [], [], _, _, _ => rfl
  | [], (_, _) :: _, _, hw₂, h => absurd h.symm (Memory.not_readsAlike_of_head_lt hw₂ (by simp))
  | (_, _) :: _, [], hw₁, _, h => absurd h (Memory.not_readsAlike_of_head_lt hw₁ (by simp))
  | (k₁, b₁) :: r₁, (k₂, b₂) :: r₂, hw₁, hw₂, h => by
    obtain rfl : k₁ = k₂ :=
      Nat.le_antisymm (Memory.head_le_of_readsAlike hw₂ hw₁ h.symm) (Memory.head_le_of_readsAlike hw₁ hw₂ h)
    obtain ⟨hk, -, -, hr₁⟩ := (Memory.wf_cons k₁ b₁ r₁).mp hw₁
    obtain ⟨-, -, -, hr₂⟩ := (Memory.wf_cons k₁ b₂ r₂).mp hw₂
    have hb : b₁ = b₂ := by simpa using h k₁ hk
    rw [hb, Memory.eq_of_readsAlike r₁ r₂ hr₁ hr₂ (h.tail hw₁ hw₂)]

/-- Settles O7, by induction on both lists of cells (`Memory.eq_of_readsAlike`). -/
theorem canonicalMemoryIsUnique : Obligations.CanonicalMemoryIsUnique := by
  unfold Obligations.CanonicalMemoryIsUnique
  exact Memory.eq_of_readsAlike

end Sys2Proof.Machine
end

section
/-! PROOFS. Who writes memory (20_memory.md R31, R34): `MemWrite`, which no instruction uses, and `Reset`. -/

namespace Sys2Proof.Machine

/-! ### `MemRead` -/

/-- A byte read depends on memory alone. -/
theorem State.memRead_congr {s t : State} (h : t.mem = s.mem) (addr : Word) : t.memRead addr = s.memRead addr := by
  unfold State.memRead
  rw [h]

theorem State.memRead_memWrite_same (s : State) (addr : Word) (v : Byte) (h : Memory.wf s.mem = true) :
    (s.memWrite addr v).memRead addr = v := by
  simp [State.memRead_memWrite s addr v addr h]

/-- A write leaves every other address alone, whatever the list of cells. -/
theorem State.memRead_memWrite_other (s : State) {addr other : Word} (v : Byte) (h : other ≠ addr) :
    (s.memWrite addr v).memRead other = s.memRead other :=
  Memory.read_write_other s.mem addr.toNat v other.toNat fun he => h (BitVec.eq_of_toNat_eq he.symm)

/-! ### What an instruction does to memory and to the counter -/

@[simp] theorem State.loadA_mem (s : State) (v : Byte) : (s.loadA v).mem = s.mem := rfl

@[simp] theorem State.loadAFrom_mem (s : State) (ea : Word) : (s.loadAFrom ea).mem = s.mem := rfl

@[simp] theorem State.loadA_cyc (s : State) (v : Byte) : (s.loadA v).cyc = s.cyc := rfl

@[simp] theorem State.loadAFrom_cyc (s : State) (ea : Word) : (s.loadAFrom ea).cyc = s.cyc - 1 := rfl

/-- No instruction writes memory (20_memory.md R34). -/
theorem exec_mem {i : Instr} {s t : State} (h : exec i s = .next t) : t.mem = s.mem := by
  cases i <;> cases h <;> simp

/-- An instruction takes its whole cost off the counter (40_fetch_execute.md R83). -/
theorem exec_cyc {i : Instr} {s t : State} (h : exec i s = .next t) : t.cyc = s.cyc - instrCost i := by
  cases i with
  | ldaIm m => cases h; simp [instrCost]; omega
  | ldaZp m => cases h; simp [instrCost]; omega
  | ldaZpx m => cases h; simp [instrCost]; omega
  | unk op => cases h; simp [instrCost]

/-- Settles O8: the read-after-write laws, and `exec_mem`. -/
theorem memWriteStoresOneByte : Obligations.MemWriteStoresOneByte := by
  unfold Obligations.MemWriteStoresOneByte
  refine ⟨fun s addr v hw => ⟨s.memRead_memWrite_same addr v hw, fun _ => s.memRead_memWrite_other v, rfl⟩, fun i s => ?_⟩
  obtain ⟨t, ht⟩ := exec_total i s
  exact ⟨t, ht, State.memRead_congr (exec_mem ht)⟩

/-! ### What a step does to memory -/

@[simp] theorem State.resetMachine_mem (p : Params) (s : State) : (s.resetMachine p).mem = [] := rfl

@[simp] theorem State.writeReg_mem (s : State) (rv : RegValue) : (s.writeReg rv).mem = s.mem := by
  obtain ⟨-, -, hmem, -⟩ := s.writeReg_rest rv
  exact hmem

/-- Of the transactions that are carried out, `Reset` and `HostWriteMem` alone write memory. -/
theorem State.transact_mem {p : Params} {x : Transaction} {s t : State} (h : s.transact p x = .next t) :
    (x = .reset ∧ t.mem = []) ∨ (∃ addr v, x = .writeMem addr v ∧ t.mem = (s.memWrite addr v).mem) ∨ t.mem = s.mem := by
  obtain ⟨rfl, -, rfl⟩ | ⟨-, hx⟩ := State.transact_cases h
  · exact .inl ⟨rfl, rfl⟩
  · obtain ⟨addr, v, rfl, rfl⟩ | ⟨addr, -, rfl⟩ | ⟨rv, -, rfl⟩ | ⟨r, -, rfl⟩ | ⟨b, -, -, rfl⟩ := hx
    · exact .inr (.inl ⟨addr, v, rfl, rfl⟩)
    · exact .inr (.inr (s.reply_mem _))
    · exact .inr (.inr (s.writeReg_mem rv))
    · exact .inr (.inr (s.reply_mem _))
    · exact .inr (.inr (s.enterExecute_mem b))

/-- Everything a step that is taken can do to memory (20_memory.md R31, R34). -/
theorem stepWith_mem {p : Params} {s t : State} (h : stepWith p s = .next t) :
    t.mem = s.mem ∨
      (s.run ≠ .running ∧ ∃ rest, s.host.script = .reset :: rest ∧ t.mem = []) ∨
      (s.run ≠ .running ∧ ∃ addr v rest, s.host.script = .writeMem addr v :: rest ∧ t.mem = (s.memWrite addr v).mem) := by
  obtain ⟨-, -, he⟩ | ⟨-, -, rfl⟩ | ⟨-, -, rfl⟩ | ⟨hr, x, rest, hs, hx⟩ := stepWith_cases h
  · exact .inl (exec_mem he)
  · exact .inl s.leaveExecute_mem
  · exact .inl rfl
  · obtain ⟨rfl, ht⟩ | ⟨addr, v, rfl, ht⟩ | ht := State.transact_mem hx
    · exact .inr (.inl ⟨hr, rest, hs, ht⟩)
    · exact .inr (.inr ⟨hr, addr, v, rest, hs, ht⟩)
    · exact .inl ht

/-- Settles O9: by `stepWith_mem`, and where the step is a host write, the address is the one written. -/
theorem memoryChangesOnlyByHost : Obligations.MemoryChangesOnlyByHost := by
  unfold Obligations.MemoryChangesOnlyByHost
  intro p s t h addr hne
  obtain ht | ⟨hr, rest, hs, -⟩ | ⟨hr, written, v, rest, hs, ht⟩ := stepWith_mem h
  · exact absurd (State.memRead_congr ht addr) hne
  · exact ⟨hr, rest, .inl hs⟩
  · have haddr : addr = written := by
      by_contra hother
      exact hne ((State.memRead_congr ht addr).trans (s.memRead_memWrite_other v hother))
    exact ⟨hr, rest, .inr ⟨v, by rw [haddr, hs]⟩⟩

end Sys2Proof.Machine
end

section
/-! PROOFS. The invariant: canonical memory, and a running counter within the largest budget (40_fetch_execute.md R73, R75). -/

namespace Sys2Proof.Machine

/-- A step keeps the canonical form. -/
theorem stepWith_wf {p : Params} {s t : State} (hw : Memory.wf s.mem = true) (h : stepWith p s = .next t) :
    Memory.wf t.mem = true := by
  obtain ht | ⟨-, -, -, ht⟩ | ⟨-, addr, v, -, -, ht⟩ := stepWith_mem h
  · rw [ht, hw]
  · rw [ht]; rfl
  · rw [ht]; exact s.memWrite_wf addr v hw

/-- A transaction that leaves the core running is an `Execute` whose budget the counter holds. -/
theorem State.transact_cyc_le {p : Params} {x : Transaction} {s t : State} (h : s.transact p x = .next t)
    (ht : t.run = .running) : t.cyc ≤ p.cycMax := by
  obtain ⟨-, -, rfl⟩ | ⟨hi, hx⟩ := State.transact_cases h
  · simp at ht
  · obtain ⟨addr, v, -, rfl⟩ | ⟨addr, -, rfl⟩ | ⟨rv, -, rfl⟩ | ⟨r, -, rfl⟩ | ⟨b, -, hb, rfl⟩ := hx
    · simp [hi] at ht
    · simp [hi] at ht
    · simp [hi] at ht
    · simp [hi] at ht
    · exact hb

/-- A step that leaves the core running either ran an instruction, which lowers the counter, or began an `Execute`
(40_fetch_execute.md R73, R75). -/
theorem stepWith_cyc_le {p : Params} {s t : State} (h : stepWith p s = .next t) (ht : t.run = .running) :
    (s.run = .running ∧ t.cyc ≤ s.cyc) ∨ t.cyc ≤ p.cycMax := by
  obtain ⟨hr, -, he⟩ | ⟨-, -, rfl⟩ | ⟨hr, -, rfl⟩ | ⟨-, x, rest, -, hx⟩ := stepWith_cases h
  · exact .inl ⟨hr, by have := exec_cyc he; omega⟩
  · simp at ht
  · exact absurd ht hr
  · exact .inr (State.transact_cyc_le hx ht)

theorem stepWith_machineInv {p : Params} {s t : State} (hs : MachineInv p s) (h : stepWith p s = .next t) :
    MachineInv p t := by
  obtain ⟨hw, hcyc⟩ := hs
  refine ⟨stepWith_wf hw h, fun ht => ?_⟩
  obtain ⟨hr, hle⟩ | hle := stepWith_cyc_le h ht
  · exact hle.trans (hcyc hr)
  · exact hle

/-- Settles O37: `stepWith_machineInv`, of which `step` is the case of the default parameters. -/
theorem everyStepKeepsInv : Obligations.EveryStepKeepsInv := by
  unfold Obligations.EveryStepKeepsInv
  exact ⟨fun p s t => stepWith_machineInv, fun s t => stepWith_machineInv⟩

end Sys2Proof.Machine
end

section
/-! PROOFS. Fetch is coherent with the host's writes (20_memory.md R41, R43). -/

namespace Sys2Proof.Machine

theorem stepsWith_succ {p : Params} {s t : State} (k : Nat) (h : stepWith p s = .next t) :
    stepsWith p (k + 1) s = stepsWith p k t := by
  simp [stepsWith, h]

theorem stepWith_writeMem {p : Params} {s : State} {addr : Word} {v : Byte} {rest : List Transaction}
    (hr : s.run = .idle) (hs : s.host.script = .writeMem addr v :: rest) :
    stepWith p s = .next ((s.withScript rest).memWrite addr v) :=
  stepWith_idle hr hs

theorem stepWith_execute {p : Params} {s : State} {budget : Int} {rest : List Transaction} (hr : s.run = .idle)
    (hs : s.host.script = .execute budget :: rest) (hb : budget ≤ p.cycMax) :
    stepWith p s = .next ((s.withScript rest).enterExecute budget) :=
  (stepWith_idle hr hs).trans (State.perform_execute _ hb)

/-- The state after the host has written `op` at PC and `m` at the next address and has begun `Execute(budget)`. -/
def State.loadedAtPc (s : State) (op m : Byte) (budget : Int) (rest : List Transaction) : State :=
  (((s.memWrite s.pc op).memWrite (s.pc + 1) m).withScript rest).enterExecute budget

/-- The three transactions take three steps; each leaves the rest of the script to the next. -/
theorem stepsWith_loadedAtPc {p : Params} {s : State} {op m : Byte} {budget : Int} {rest : List Transaction}
    (hr : s.run = .idle) (hb : budget ≤ p.cycMax)
    (hs : s.host.script = .writeMem s.pc op :: .writeMem (s.pc + 1) m :: .execute budget :: rest) :
    stepsWith p 3 s = .next (s.loadedAtPc op m budget rest) := by
  rw [stepsWith_succ 2 (stepWith_writeMem hr hs), stepsWith_succ 1 (stepWith_writeMem (by simpa using hr) rfl),
    stepsWith_succ 0 (stepWith_execute (by simpa using hr) rfl hb)]
  rfl

/-- The instruction at PC is the one the host wrote: its second write, at an address other than PC even where PC is the top
of memory, leaves the first. -/
theorem State.instrAtPc_loadedAtPc (p : Params) {s : State} (op m : Byte) (budget : Int) (rest : List Transaction)
    (hw : Memory.wf s.mem = true) : (s.loadedAtPc op m budget rest).instrAtPc p = instrOfBytes p op m := by
  have hnext : s.pc ≠ s.pc + 1 := by bv_omega
  have hop : (s.loadedAtPc op m budget rest).memRead s.pc = op :=
    ((s.memWrite s.pc op).memRead_memWrite_other m hnext).trans (s.memRead_memWrite_same s.pc op hw)
  have hm : (s.loadedAtPc op m budget rest).memRead (s.pc + 1) = m :=
    (s.memWrite s.pc op).memRead_memWrite_same (s.pc + 1) m (s.memWrite_wf s.pc op hw)
  have hpc : (s.loadedAtPc op m budget rest).pc = s.pc := rfl
  rw [State.instrAtPc, hpc, hop, hm]

/-- Settles O47: three steps lead to `loadedAtPc`, in which the instruction at PC is the one written. -/
theorem hostWritesAreFetched : Obligations.HostWritesAreFetched := by
  unfold Obligations.HostWritesAreFetched
  intro p s op m budget rest hw hr hpos hb hs
  refine ⟨s.loadedAtPc op m budget rest, stepsWith_loadedAtPc hr hb hs, rfl, rfl, rfl, ?_⟩
  rw [← State.instrAtPc_loadedAtPc p op m budget rest hw]
  exact stepWith_running p _ rfl hpos

end Sys2Proof.Machine
end

section
/-! PROOFS. The opcode map, read in both directions: which bytes are bound, and how many are not (30_encoding.md R53, R54,
R56). -/

namespace Sys2Proof

theorem Params.isUnbound_iff (p : Params) (op : Byte) :
    p.isUnbound op = true ↔ op ≠ p.opcLdaIm ∧ op ≠ p.opcLdaZp ∧ op ≠ p.opcLdaZpx := by
  simp [Params.isUnbound, and_assoc]

theorem decodeOpcode_eq_unk_iff_ne (p : Params) (op : Byte) :
    decodeOpcode p op = .unk ↔ op ≠ p.opcLdaIm ∧ op ≠ p.opcLdaZp ∧ op ≠ p.opcLdaZpx :=
  (decodeOpcode_eq_unk_iff p op).trans (p.isUnbound_iff op)

theorem decodeOpcode_ne_unk_iff (p : Params) (op : Byte) :
    decodeOpcode p op ≠ .unk ↔ op = p.opcLdaIm ∨ op = p.opcLdaZp ∨ op = p.opcLdaZpx := by
  rw [Ne, decodeOpcode_eq_unk_iff_ne]
  tauto

/-- A selected load names its own opcode byte, even where the three bytes are not distinct. -/
theorem decodeOpcode_cases (p : Params) (op : Byte) :
    (decodeOpcode p op = .ldaIm ∧ op = p.opcLdaIm) ∨ (decodeOpcode p op = .ldaZp ∧ op = p.opcLdaZp) ∨
      (decodeOpcode p op = .ldaZpx ∧ op = p.opcLdaZpx) ∨ decodeOpcode p op = .unk := by
  by_cases him : op = p.opcLdaIm
  · exact .inl ⟨him ▸ decodeOpcode_opcLdaIm p, him⟩
  by_cases hzp : op = p.opcLdaZp
  · exact .inr (.inl ⟨by rw [decodeOpcode, if_neg him, if_pos hzp], hzp⟩)
  by_cases hzpx : op = p.opcLdaZpx
  · exact .inr (.inr (.inl ⟨by rw [decodeOpcode, if_neg him, if_neg hzp, if_pos hzpx], hzpx⟩))
  · exact .inr (.inr (.inr ((decodeOpcode_eq_unk_iff_ne p op).mpr ⟨him, hzp, hzpx⟩)))

theorem opcode_eq_of_ldaIm {p : Params} {op : Byte} (h : decodeOpcode p op = .ldaIm) : op = p.opcLdaIm := by
  simpa [h] using decodeOpcode_cases p op

theorem opcode_eq_of_ldaZp {p : Params} {op : Byte} (h : decodeOpcode p op = .ldaZp) : op = p.opcLdaZp := by
  simpa [h] using decodeOpcode_cases p op

theorem opcode_eq_of_ldaZpx {p : Params} {op : Byte} (h : decodeOpcode p op = .ldaZpx) : op = p.opcLdaZpx := by
  simpa [h] using decodeOpcode_cases p op

/-- The unknown opcodes are the complement of three bytes. -/
theorem filter_unk_eq_compl (p : Params) :
    (Finset.univ.filter fun k : Fin 256 => decodeOpcode p (BitVec.ofFin k) = .unk) =
      ({p.opcLdaIm.toFin, p.opcLdaZp.toFin, p.opcLdaZpx.toFin} : Finset (Fin 256))ᶜ := by
  ext k
  simp [decodeOpcode_eq_unk_iff_ne, ← BitVec.toFin_inj]

theorem card_bound_opcodes {p : Params} (h : p.Ok) :
    ({p.opcLdaIm.toFin, p.opcLdaZp.toFin, p.opcLdaZpx.toFin} : Finset (Fin 256)).card = 3 := by
  obtain ⟨himZp, himZpx, hzpZpx, -⟩ := h
  exact Finset.card_eq_three.mpr ⟨_, _, _, mt BitVec.toFin_inj.mp himZp, mt BitVec.toFin_inj.mp himZpx,
    mt BitVec.toFin_inj.mp hzpZpx, rfl⟩

/-- Settles O6: 256 bytes less the three bound ones. -/
theorem unknownOpcodesNumber253 : Obligations.UnknownOpcodesNumber253 := by
  unfold Obligations.UnknownOpcodesNumber253
  intro p h
  rw [filter_unk_eq_compl, Finset.card_compl, card_bound_opcodes h, Fintype.card_fin]

/-- Settles O4: the byte of a selection is the one it names (`opcode_eq_of_…`), and selects it where the three bytes are
distinct. -/
theorem decodeSelectsByOpcode : Obligations.DecodeSelectsByOpcode := by
  unfold Obligations.DecodeSelectsByOpcode
  refine ⟨fun p h op => ⟨⟨opcode_eq_of_ldaIm, ?_⟩, ⟨opcode_eq_of_ldaZp, ?_⟩, ⟨opcode_eq_of_ldaZpx, ?_⟩,
    decodeOpcode_eq_unk_iff_ne p op⟩, fun p s => instrOfBytes_selection p _ _⟩
  · rintro rfl; exact decodeOpcode_opcLdaIm p
  · rintro rfl; exact decodeOpcode_opcLdaZp p h
  · rintro rfl; exact decodeOpcode_opcLdaZpx p h

end Sys2Proof
end

section
/-! PROOFS. The list decoder and the encoder are inverse to each other (30_encoding.md R50 to R52, R54). The decoder has
three cases: an unknown opcode, a bound one with its operand byte, and a bound one without. -/

namespace Sys2Proof

/-! ### What each selection reads -/

theorem instrOfBytes_ldaIm {p : Params} {op : Byte} (h : decodeOpcode p op = .ldaIm) (m : Byte) :
    instrOfBytes p op m = .ldaIm m := by
  simp [instrOfBytes, h]

theorem instrOfBytes_ldaZp {p : Params} {op : Byte} (h : decodeOpcode p op = .ldaZp) (m : Byte) :
    instrOfBytes p op m = .ldaZp m := by
  simp [instrOfBytes, h]

theorem instrOfBytes_ldaZpx {p : Params} {op : Byte} (h : decodeOpcode p op = .ldaZpx) (m : Byte) :
    instrOfBytes p op m = .ldaZpx m := by
  simp [instrOfBytes, h]

theorem instrOfBytes_unk {p : Params} {op : Byte} (h : decodeOpcode p op = .unk) (m : Byte) :
    instrOfBytes p op m = .unk op := by
  simp [instrOfBytes, h]

theorem decode_ldaIm {p : Params} {op : Byte} (h : decodeOpcode p op = .ldaIm) (m : Byte) (rest : List Byte) :
    decode p (op :: m :: rest) = .ok (.ldaIm m, rest) := by
  simp [decode, h]

theorem decode_ldaZp {p : Params} {op : Byte} (h : decodeOpcode p op = .ldaZp) (m : Byte) (rest : List Byte) :
    decode p (op :: m :: rest) = .ok (.ldaZp m, rest) := by
  simp [decode, h]

theorem decode_ldaZpx {p : Params} {op : Byte} (h : decodeOpcode p op = .ldaZpx) (m : Byte) (rest : List Byte) :
    decode p (op :: m :: rest) = .ok (.ldaZpx m, rest) := by
  simp [decode, h]

theorem decode_unk {p : Params} {op : Byte} (h : decodeOpcode p op = .unk) (rest : List Byte) :
    decode p (op :: rest) = .ok (.unk op, rest) := by
  simp [decode, h]

/-! ### The three cases of `decode` -/

/-- A bound opcode and the byte after it are read as the instruction those two bytes stand for in memory. -/
theorem decode_bound {p : Params} {op : Byte} (h : decodeOpcode p op ≠ .unk) (m : Byte) (rest : List Byte) :
    decode p (op :: m :: rest) = .ok (instrOfBytes p op m, rest) := by
  cases hs : decodeOpcode p op with
  | ldaIm => rw [decode_ldaIm hs, instrOfBytes_ldaIm hs]
  | ldaZp => rw [decode_ldaZp hs, instrOfBytes_ldaZp hs]
  | ldaZpx => rw [decode_ldaZpx hs, instrOfBytes_ldaZpx hs]
  | unk => exact absurd hs h

theorem decode_bound_nil {p : Params} {op : Byte} (h : decodeOpcode p op ≠ .unk) :
    decode p [op] = .error .noOperand := by
  cases hs : decodeOpcode p op with
  | ldaIm => simp [decode, hs]
  | ldaZp => simp [decode, hs]
  | ldaZpx => simp [decode, hs]
  | unk => exact absurd hs h

/-- Where an instruction is read, its one or two bytes stand in front of what is left. -/
theorem decode_eq_ok {p : Params} {bytes rest : List Byte} {i : Instr} (h : decode p bytes = .ok (i, rest)) :
    ∃ op, (decodeOpcode p op = .unk ∧ i = .unk op ∧ bytes = op :: rest) ∨
      (decodeOpcode p op ≠ .unk ∧ ∃ m, i = instrOfBytes p op m ∧ bytes = op :: m :: rest) := by
  cases bytes with
  | nil => cases h
  | cons op tail =>
    refine ⟨op, ?_⟩
    by_cases hu : decodeOpcode p op = .unk
    · rw [decode_unk hu] at h
      cases h
      exact .inl ⟨hu, rfl, rfl⟩
    · cases tail with
      | nil => rw [decode_bound_nil hu] at h; cases h
      | cons m tail =>
        rw [decode_bound hu] at h
        cases h
        exact .inr ⟨hu, m, rfl, rfl⟩

/-! ### The instruction read from a bound opcode -/

theorem encode_instrOfBytes {p : Params} {op : Byte} (h : decodeOpcode p op ≠ .unk) (m : Byte) :
    encode p (instrOfBytes p op m) = [op, m] := by
  cases hs : decodeOpcode p op with
  | ldaIm => rw [instrOfBytes_ldaIm hs, encode, opcode_eq_of_ldaIm hs]
  | ldaZp => rw [instrOfBytes_ldaZp hs, encode, opcode_eq_of_ldaZp hs]
  | ldaZpx => rw [instrOfBytes_ldaZpx hs, encode, opcode_eq_of_ldaZpx hs]
  | unk => exact absurd hs h

/-- Whatever two bytes stand at an address, the instruction read there is well formed. -/
theorem instrOfBytes_wf (p : Params) (op m : Byte) : (instrOfBytes p op m).wf p = true := by
  cases hs : decodeOpcode p op with
  | ldaIm => rw [instrOfBytes_ldaIm hs]; rfl
  | ldaZp => rw [instrOfBytes_ldaZp hs]; rfl
  | ldaZpx => rw [instrOfBytes_ldaZpx hs]; rfl
  | unk => rw [instrOfBytes_unk hs]; exact (decodeOpcode_eq_unk_iff p op).mp hs

theorem Selection.length_of_ne_unk {sel : Selection} (h : sel ≠ .unk) : sel.length = 2 := by
  cases sel with
  | ldaIm => rfl
  | ldaZp => rfl
  | ldaZpx => rfl
  | unk => exact absurd rfl h

theorem instrOfBytes_length {p : Params} {op : Byte} (h : decodeOpcode p op ≠ .unk) (m : Byte) :
    (instrOfBytes p op m).length = 2 := by
  rw [Instr.length, instrOfBytes_selection, Selection.length_of_ne_unk h]

/-! ### Round trips and lengths -/

/-- Settles O1: the opcode byte of an encoding selects its instruction, distinct bytes for the three loads and an unbound
byte for an unknown opcode. -/
theorem decodeAfterEncode : Obligations.DecodeAfterEncode := by
  unfold Obligations.DecodeAfterEncode
  intro p h i rest hw
  cases i with
  | ldaIm m => exact decode_ldaIm (decodeOpcode_opcLdaIm p) m rest
  | ldaZp m => exact decode_ldaZp (decodeOpcode_opcLdaZp p h) m rest
  | ldaZpx m => exact decode_ldaZpx (decodeOpcode_opcLdaZpx p h) m rest
  | unk op => exact decode_unk ((decodeOpcode_eq_unk_iff p op).mpr hw) rest

/-- Settles O2: by the two ways in which an instruction is read (`decode_eq_ok`). -/
theorem encodeAfterDecode : Obligations.EncodeAfterDecode := by
  unfold Obligations.EncodeAfterDecode
  intro p bytes rest i h
  obtain ⟨op, ⟨hu, rfl, rfl⟩ | ⟨hb, m, rfl, rfl⟩⟩ := decode_eq_ok h
  · exact ⟨rfl, (decodeOpcode_eq_unk_iff p op).mp hu⟩
  · exact ⟨by rw [encode_instrOfBytes hb]; rfl, instrOfBytes_wf p op m⟩

/-- Settles O5: the three clauses are the three cases of `decode`. -/
theorem lengthFromOpcodeAlone : Obligations.LengthFromOpcodeAlone := by
  unfold Obligations.LengthFromOpcodeAlone
  intro p op rest
  rw [← decodeOpcode_ne_unk_iff p op]
  refine ⟨fun hb hnil => ?_, fun hb hne => ?_, fun hu => ?_⟩
  · rw [hnil, decode_bound_nil hb]
  · obtain ⟨m, tail, rfl⟩ := List.exists_cons_of_ne_nil hne
    exact ⟨instrOfBytes p op m, decode_bound hb m tail, instrOfBytes_length hb m⟩
  · exact ⟨.unk op, decode_unk (not_not.mp hu) rest, rfl⟩

/-- Settles O3: five closed words, evaluated. -/
theorem specWordsDecode : Obligations.SpecWordsDecode := by
  unfold Obligations.SpecWordsDecode
  decide

end Sys2Proof
end

section
/-! PROOFS. The fetch primitives (40_fetch_execute.md R65 to R68, R70). -/

namespace Sys2Proof.Machine

/-- Settles O10: one `passByte`, with the wrap of PC written as a remainder. -/
theorem fetchByteEffect : Obligations.FetchByteEffect := by
  unfold Obligations.FetchByteEffect
  intro s
  refine ⟨s.fetchByte_fst, ?_⟩
  rw [ofNat_toNat_add, s.fetchByte_snd, s.passByte_eq]
  rfl

/-- Settles O11. -/
theorem readByteEffect : Obligations.ReadByteEffect := by
  unfold Obligations.ReadByteEffect
  exact fun _ _ => rfl

/-- Two bytes side by side: the right one is the low half (20_memory.md R37). -/
theorem toNat_append_byte (hi lo : Byte) : (hi ++ lo).toNat = lo.toNat + 256 * hi.toNat := by
  rw [BitVec.toNat_append, ← Nat.shiftLeft_add_eq_or_of_lt lo.isLt, Nat.shiftLeft_eq]
  omega

@[simp] theorem State.fetchWord_fst (s : State) : s.fetchWord.1 = s.memRead (s.pc + 1) ++ s.memRead s.pc := rfl

@[simp] theorem State.fetchWord_snd (s : State) : s.fetchWord.2 = s.passByte.passByte := rfl

theorem State.passByte_passByte_eq (s : State) : s.passByte.passByte = { s with pc := s.pc + 2, cyc := s.cyc - 2 } := by
  have hpc : s.pc + 1 + 1 = s.pc + 2 := by rw [BitVec.add_assoc]; rfl
  have hcyc : s.cyc - 1 - 1 = s.cyc - 2 := by omega
  simp only [State.passByte_eq, hpc, hcyc]

/-- Settles O12: the second byte fetched, at PC + 1, is the high half. -/
theorem fetchWordLittleEndian : Obligations.FetchWordLittleEndian := by
  unfold Obligations.FetchWordLittleEndian
  intro s
  rw [s.fetchWord_fst, s.fetchWord_snd, toNat_append_byte, s.passByte_passByte_eq, ofNat_toNat_add, ofNat_toNat_add]
  exact ⟨rfl, rfl⟩

/-! ### The cost of an instruction (R83) -/

/-- Every instruction costs between 1 and 4. -/
theorem instrCost_bounds (i : Instr) : 1 ≤ instrCost i ∧ instrCost i ≤ 4 := by
  cases i <;> simp [instrCost]

theorem exec_total_cyc (i : Instr) (s : State) : ∃ t, exec i s = .next t ∧ t.cyc = s.cyc - instrCost i := by
  obtain ⟨t, ht⟩ := exec_total i s
  exact ⟨t, ht, exec_cyc ht⟩

/-- Settles O13: `instrCost` is R83's column of totals, and `exec_cyc` takes it off. -/
theorem instructionCosts : Obligations.InstructionCosts := by
  unfold Obligations.InstructionCosts
  exact fun s => ⟨fun m => exec_total_cyc (.ldaIm m) s, fun m => exec_total_cyc (.ldaZp m) s,
    fun m => exec_total_cyc (.ldaZpx m) s, fun op => exec_total_cyc (.unk op) s⟩

end Sys2Proof.Machine
end

section
/-! PROOFS. The step of a running core: the instruction that stands at PC, and the spec's own `StepInstr`
(40_fetch_execute.md R77 to R79). -/

namespace Sys2Proof

/-- Two bytes always begin with a whole instruction, the one they stand for in memory (30_encoding.md R50, R58). -/
theorem decode_pair (p : Params) (op m : Byte) : ∃ rest, decode p [op, m] = .ok (instrOfBytes p op m, rest) := by
  by_cases hu : decodeOpcode p op = .unk
  · exact ⟨[m], by rw [decode_unk hu, instrOfBytes_unk hu]⟩
  · exact ⟨[], decode_bound hu m []⟩

end Sys2Proof

namespace Sys2Proof.Machine

theorem State.decode_bytesAtPc (p : Params) (s : State) : ∃ rest, decode p s.bytesAtPc = .ok (s.instrAtPc p, rest) :=
  decode_pair p _ _

theorem State.eq_instrAtPc_of_decode {p : Params} {s : State} {i : Instr} {rest : List Byte}
    (h : decode p s.bytesAtPc = .ok (i, rest)) : i = s.instrAtPc p := by
  obtain ⟨rest', h'⟩ := s.decode_bytesAtPc p
  rw [h] at h'
  cases h'
  rfl

theorem State.instrAtPc_wf (p : Params) (s : State) : (s.instrAtPc p).wf p = true :=
  instrOfBytes_wf p _ _

theorem stepWith_decoded {p : Params} {s : State} {i : Instr} {rest : List Byte} (hr : s.run = .running) (hc : 0 < s.cyc)
    (h : decode p s.bytesAtPc = .ok (i, rest)) : stepWith p s = exec i s := by
  rw [State.eq_instrAtPc_of_decode h, stepWith_running p s hr hc]

/-- Settles O28: the bytes at PC decode to `instrAtPc`, of which the step is `exec`. -/
theorem stepRunsTheDecodedInstruction : Obligations.StepRunsTheDecodedInstruction := by
  unfold Obligations.StepRunsTheDecodedInstruction
  refine ⟨fun p s i rest => stepWith_decoded, fun s i rest => stepWith_decoded, fun p s => ?_⟩
  obtain ⟨rest, h⟩ := s.decode_bytesAtPc p
  exact ⟨s.instrAtPc p, rest, h, s.instrAtPc_wf p⟩

/-! ### `StepInstr` -/

theorem State.stepInstr_ldaIm {p : Params} {s : State} (h : decodeOpcode p (s.memRead s.pc) = .ldaIm) :
    s.stepInstr p = s.passByte.handleLdaIm := by
  simp [State.stepInstr, h]

theorem State.stepInstr_ldaZp {p : Params} {s : State} (h : decodeOpcode p (s.memRead s.pc) = .ldaZp) :
    s.stepInstr p = s.passByte.handleLdaZp := by
  simp [State.stepInstr, h]

theorem State.stepInstr_ldaZpx {p : Params} {s : State} (h : decodeOpcode p (s.memRead s.pc) = .ldaZpx) :
    s.stepInstr p = s.passByte.handleLdaZpx := by
  simp [State.stepInstr, h]

theorem State.stepInstr_unk {p : Params} {s : State} (h : decodeOpcode p (s.memRead s.pc) = .unk) :
    s.stepInstr p = s.passByte.raiseUnknownOpcode (s.memRead s.pc) s.pc := by
  simp [State.stepInstr, h]

/-- Reading the instruction first and then executing it is fetching it byte by byte (R77; 41_load_accumulator.md R86 to
R88; 60_exceptions.md R115): no `FetchByte` changes the byte that the next one reads. -/
theorem exec_instrAtPc (p : Params) (s : State) : exec (s.instrAtPc p) s = .next (s.stepInstr p) := by
  unfold State.instrAtPc
  cases hsel : decodeOpcode p (s.memRead s.pc) with
  | ldaIm => rw [instrOfBytes_ldaIm hsel, State.stepInstr_ldaIm hsel]; rfl
  | ldaZp => rw [instrOfBytes_ldaZp hsel, State.stepInstr_ldaZp hsel]; rfl
  | ldaZpx => rw [instrOfBytes_ldaZpx hsel, State.stepInstr_ldaZpx hsel]; rfl
  | unk => rw [instrOfBytes_unk hsel, State.stepInstr_unk hsel]; rfl

theorem stepWith_stepInstr {p : Params} {s : State} (hr : s.run = .running) (hc : 0 < s.cyc) :
    stepWith p s = .next (s.stepInstr p) := by
  rw [stepWith_running p s hr hc, exec_instrAtPc]

/-- Settles O29: by `exec_instrAtPc`. -/
theorem stepIsThePseudocode : Obligations.StepIsThePseudocode := by
  unfold Obligations.StepIsThePseudocode
  exact fun p s => stepWith_stepInstr

theorem State.stepInstr_eq_of_exec {p : Params} {s t : State} {i : Instr} (hi : s.instrAtPc p = i)
    (h : exec i s = .next t) : s.stepInstr p = t := by
  have hstep := exec_instrAtPc p s
  rw [hi, h] at hstep
  cases hstep
  rfl

@[simp] theorem State.stepInstr_run (p : Params) (s : State) : (s.stepInstr p).run = s.run :=
  exec_run (exec_instrAtPc p s)

@[simp] theorem State.stepInstr_host (p : Params) (s : State) : (s.stepInstr p).host = s.host := by
  obtain ⟨-, -, hhost⟩ := exec_frame (exec_instrAtPc p s)
  exact hhost

theorem State.stepInstr_cyc (p : Params) (s : State) : (s.stepInstr p).cyc = s.cyc - instrCost (s.instrAtPc p) :=
  exec_cyc (exec_instrAtPc p s)

/-- `StepInstr` lowers the counter by one to four (R83). -/
theorem State.stepInstr_cyc_bounds (p : Params) (s : State) :
    s.cyc - 4 ≤ (s.stepInstr p).cyc ∧ (s.stepInstr p).cyc ≤ s.cyc - 1 := by
  have hcost := instrCost_bounds (s.instrAtPc p)
  rw [s.stepInstr_cyc p]
  omega

/-- Settles O34: with budget left the step is `StepInstr`, without it is `leaveExecute`. -/
theorem onlyTheBudgetEndsARun : Obligations.OnlyTheBudgetEndsARun := by
  unfold Obligations.OnlyTheBudgetEndsARun
  intro p s hr
  refine ⟨fun hc => ⟨s.stepInstr p, stepWith_stepInstr hr hc, ?_⟩, stepWith_exhausted p s hr⟩
  rw [s.stepInstr_run, hr]

end Sys2Proof.Machine
end

section
/-! PROOFS. The counter stays in its `CYC_W` bits (10_state.md R19, 40_fetch_execute.md R72, R73, R75). -/

namespace Sys2Proof.Machine

/-! ### The range of the counter -/

/-- A counter of at least 4 bits holds every value from -8 to 7. -/
theorem Params.cyc_range {p : Params} (hp : p.Ok) : p.cycMin ≤ -8 ∧ 7 ≤ p.cycMax := by
  obtain ⟨-, -, -, hw⟩ := hp
  have hpow : (2 : Int) ^ 3 ≤ 2 ^ (p.cycW - 1) := pow_le_pow_right₀ (by decide) (by omega)
  unfold Params.cycMin Params.cycMax
  omega

/-- Subtraction in `CYC_W` bits is exact where its result fits (R73). -/
theorem toInt_ofInt_sub_ofNat {p : Params} (hp : p.Ok) {c : Int} {n : Nat} (hlo : p.cycMin ≤ c - n)
    (hhi : c - n ≤ p.cycMax) : (BitVec.ofInt p.cycW c - BitVec.ofNat p.cycW n).toInt = c - n := by
  obtain ⟨-, -, -, hw⟩ := hp
  unfold Params.cycMin at hlo
  unfold Params.cycMax at hhi
  rw [BitVec.sub_eq_add_neg, BitVec.neg_ofNat_eq_ofInt_neg, ← BitVec.ofInt_add, ← sub_eq_add_neg]
  exact BitVec.toInt_ofInt_eq_self (by omega) hlo (by omega)

/-- Settles O14: an instruction costs at most 4, so from a positive counter the result is at least -3, which fits. -/
theorem counterNeverWraps : Obligations.CounterNeverWraps := by
  unfold Obligations.CounterNeverWraps
  intro p hp s hr hc hmax
  have hrange := Params.cyc_range hp
  have hcost := instrCost_bounds (s.instrAtPc p)
  have hcyc := s.stepInstr_cyc p
  refine ⟨s.stepInstr p, stepWith_stepInstr hr hc, by omega, by omega, ?_⟩
  rw [hcyc]
  exact toInt_ofInt_sub_ofNat hp (by omega) (by omega)

/-! ### What a step does to the counter and to the host's script -/

theorem State.resetMachine_cycFits {p : Params} (hp : p.Ok) (s : State) : CycFits p (s.resetMachine p) := by
  obtain ⟨-, -, -, hw⟩ := hp
  exact signedInBits_range p.cycW (by omega) Config.cycAfterReset

@[simp] theorem State.writeReg_cyc (s : State) (rv : RegValue) : (s.writeReg rv).cyc = s.cyc := by
  obtain ⟨hcyc, -⟩ := s.writeReg_rest rv
  exact hcyc

@[simp] theorem State.writeReg_host (s : State) (rv : RegValue) : (s.writeReg rv).host = s.host := by
  obtain ⟨-, -, -, -, hhost⟩ := s.writeReg_rest rv
  exact hhost

/-- A transaction that is carried out leaves the counter, unless it is a `Reset` or an accepted `Execute`. -/
theorem State.transact_cyc {p : Params} {x : Transaction} {s t : State} (h : s.transact p x = .next t) :
    (x = .reset ∧ t = s.resetMachine p) ∨ (x = .execute t.cyc ∧ t.cyc ≤ p.cycMax) ∨ t.cyc = s.cyc := by
  obtain ⟨rfl, -, rfl⟩ | ⟨-, hx⟩ := State.transact_cases h
  · exact .inl ⟨rfl, rfl⟩
  · obtain ⟨addr, v, -, rfl⟩ | ⟨addr, -, rfl⟩ | ⟨rv, -, rfl⟩ | ⟨r, -, rfl⟩ | ⟨b, rfl, hb, rfl⟩ := hx
    · exact .inr (.inr (s.memWrite_cyc addr v))
    · exact .inr (.inr (s.reply_cyc _))
    · exact .inr (.inr (s.writeReg_cyc rv))
    · exact .inr (.inr (s.reply_cyc _))
    · exact .inr (.inl ⟨rfl, hb⟩)

/-- No transaction touches the script it was taken from. -/
theorem State.transact_script {p : Params} {x : Transaction} {s t : State} (h : s.transact p x = .next t) :
    t.host.script = s.host.script := by
  obtain ⟨-, -, rfl⟩ | ⟨-, hx⟩ := State.transact_cases h
  · rfl
  · obtain ⟨addr, v, -, rfl⟩ | ⟨addr, -, rfl⟩ | ⟨rv, -, rfl⟩ | ⟨r, -, rfl⟩ | ⟨b, -, -, rfl⟩ := hx
    · rfl
    · rfl
    · rw [s.writeReg_host rv]
    · rfl
    · rfl

/-- A step takes at most the head of the script off. -/
theorem stepWith_script_suffix {p : Params} {s t : State} (h : stepWith p s = .next t) :
    t.host.script <:+ s.host.script := by
  obtain ⟨-, -, he⟩ | ⟨-, -, rfl⟩ | ⟨-, -, rfl⟩ | ⟨-, x, rest, hs, hx⟩ := stepWith_cases h
  · obtain ⟨-, -, hhost⟩ := exec_frame he
    rw [hhost]
  · exact List.suffix_rfl
  · exact List.suffix_rfl
  · rw [State.transact_script hx, hs]
    exact List.suffix_cons x rest

theorem stepWith_budgetsFit {p : Params} {s t : State} (hs : BudgetsFit p s) (h : stepWith p s = .next t) :
    BudgetsFit p t :=
  fun b hb => hs b ((stepWith_script_suffix h).subset hb)

/-- An instruction starts only with a positive counter and takes at most 4 off it; `Reset` and `Execute` load a value that
fits; nothing else touches the counter. -/
theorem stepWith_cycFits {p : Params} (hp : p.Ok) {s t : State} (hc : CycFits p s) (hb : BudgetsFit p s)
    (h : stepWith p s = .next t) : CycFits p t := by
  obtain ⟨-, hpos, he⟩ | ⟨-, -, rfl⟩ | ⟨-, -, rfl⟩ | ⟨-, x, rest, hs, hx⟩ := stepWith_cases h
  · obtain ⟨-, hmax⟩ := hc
    have hrange := Params.cyc_range hp
    have hcost := instrCost_bounds (s.instrAtPc p)
    have hcyc := exec_cyc he
    exact ⟨by omega, by omega⟩
  · exact hc
  · exact hc
  · obtain ⟨-, rfl⟩ | ⟨rfl, hmax⟩ | hcyc := State.transact_cyc hx
    · exact State.resetMachine_cycFits hp _
    · exact ⟨hb t.cyc (by simp [hs]), hmax⟩
    · rw [CycFits, hcyc]
      exact hc

/-- Settles O15: `stepWith_cycFits`, and `stepWith_budgetsFit` for the host's side of it. -/
theorem counterStaysInItsWidth : Obligations.CounterStaysInItsWidth := by
  unfold Obligations.CounterStaysInItsWidth
  exact fun p hp s t hc hb h => ⟨stepWith_cycFits hp hc hb h, stepWith_budgetsFit hb h⟩

end Sys2Proof.Machine
end

section
/-! PROOFS. `Execute` is a number of instructions (40_fetch_execute.md R75, R76, R80): each begun with budget left, and as
many as it takes to use the budget up. The steps of the machine and the spec's loop both run that number. -/

namespace Sys2Proof.Machine

/-! ### Instructions in a row -/

/-- `n` instructions in a row, whatever the counter. -/
def State.instrs (p : Params) (n : Nat) (s : State) : State := (State.stepInstr p)^[n] s

@[simp] theorem State.instrs_zero (p : Params) (s : State) : s.instrs p 0 = s := rfl

theorem State.instrs_succ (p : Params) (n : Nat) (s : State) : s.instrs p (n + 1) = (s.stepInstr p).instrs p n := rfl

theorem State.instrs_succ_last (p : Params) (n : Nat) (s : State) : s.instrs p (n + 1) = (s.instrs p n).stepInstr p :=
  Function.iterate_succ_apply' _ n s

@[simp] theorem State.instrs_run (p : Params) (n : Nat) (s : State) : (s.instrs p n).run = s.run := by
  induction n generalizing s with
  | zero => rfl
  | succ n ih => rw [State.instrs_succ, ih, State.stepInstr_run]

@[simp] theorem State.instrs_host (p : Params) (n : Nat) (s : State) : (s.instrs p n).host = s.host := by
  induction n generalizing s with
  | zero => rfl
  | succ n ih => rw [State.instrs_succ, ih, State.stepInstr_host]

/-- Each of the `n` instructions lowers the counter by one to four (R80, R83). -/
theorem State.instrs_cyc_bounds (p : Params) (n : Nat) (s : State) :
    s.cyc - 4 * n ≤ (s.instrs p n).cyc ∧ (s.instrs p n).cyc ≤ s.cyc - n := by
  induction n generalizing s with
  | zero => simp
  | succ n ih =>
    have hstep := s.stepInstr_cyc_bounds p
    have hrest := ih (s.stepInstr p)
    rw [State.instrs_succ]
    omega

/-- Each of the next `n` instructions begins with budget left. -/
def State.BudgetFor (p : Params) (n : Nat) (s : State) : Prop := ∀ j < n, 0 < (s.instrs p j).cyc

theorem State.budgetFor_succ (p : Params) (n : Nat) (s : State) :
    s.BudgetFor p (n + 1) ↔ 0 < s.cyc ∧ (s.stepInstr p).BudgetFor p n :=
  Nat.forall_lt_succ_left

/-! ### How many instructions use the budget up -/

theorem State.instrs_toNat_exhausted (p : Params) (s : State) : (s.instrs p s.cyc.toNat).cyc ≤ 0 := by
  have := s.instrs_cyc_bounds p s.cyc.toNat
  omega

theorem State.exists_instrs_exhausted (p : Params) (s : State) : ∃ n, (s.instrs p n).cyc ≤ 0 :=
  ⟨s.cyc.toNat, s.instrs_toNat_exhausted p⟩

/-- The number of instructions after which, for the first time, no budget is left. -/
def State.runLength (p : Params) (s : State) : Nat := Nat.find (s.exists_instrs_exhausted p)

/-- The state in which, for the first time, no budget is left. -/
def State.afterRun (p : Params) (s : State) : State := s.instrs p (s.runLength p)

theorem State.afterRun_exhausted (p : Params) (s : State) : (s.afterRun p).cyc ≤ 0 :=
  Nat.find_spec (s.exists_instrs_exhausted p)

@[simp] theorem State.afterRun_run (p : Params) (s : State) : (s.afterRun p).run = s.run := s.instrs_run p _

@[simp] theorem State.afterRun_host (p : Params) (s : State) : (s.afterRun p).host = s.host := s.instrs_host p _

theorem State.budgetFor_runLength (p : Params) (s : State) : s.BudgetFor p (s.runLength p) :=
  fun _ hj => not_le.mp (Nat.find_min (s.exists_instrs_exhausted p) hj)

theorem State.runLength_le (p : Params) (s : State) : s.runLength p ≤ s.cyc.toNat :=
  Nat.find_min' (s.exists_instrs_exhausted p) (s.instrs_toNat_exhausted p)

theorem State.cyc_le_runLength (p : Params) (s : State) : s.cyc ≤ 4 * s.runLength p := by
  obtain ⟨hlo, -⟩ := s.instrs_cyc_bounds p (s.runLength p)
  have hend : (s.instrs p (s.runLength p)).cyc ≤ 0 := s.afterRun_exhausted p
  omega

/-- The last instruction begins with at least one unit and takes at most four. -/
theorem State.neg_three_le_afterRun (p : Params) {s : State} (hc : 0 < s.cyc) :
    -3 ≤ (s.afterRun p).cyc := by
  have hlen := s.cyc_le_runLength p
  obtain ⟨n, hn⟩ : ∃ n, s.runLength p = n + 1 := Nat.exists_eq_succ_of_ne_zero (by omega)
  have hlast := s.budgetFor_runLength p n (by omega)
  have hstep := (s.instrs p n).stepInstr_cyc_bounds p
  rw [State.afterRun, hn, State.instrs_succ_last]
  omega

/-! ### The spec's loop -/

theorem State.executeLoop_exhausted (p : Params) (fuel : Nat) {s : State} (hc : s.cyc ≤ 0) :
    State.executeLoop p fuel s = s := by
  cases fuel with
  | zero => rfl
  | succ fuel => exact if_neg (by omega)

theorem State.executeLoop_add {p : Params} {n : Nat} (fuel : Nat) {s : State} (h : s.BudgetFor p n) :
    State.executeLoop p (n + fuel) s = State.executeLoop p fuel (s.instrs p n) := by
  induction n generalizing s with
  | zero => rw [Nat.zero_add, State.instrs_zero]
  | succ n ih =>
    obtain ⟨hc, hrest⟩ := (s.budgetFor_succ p n).mp h
    rw [Nat.succ_add, State.executeLoop, if_pos hc, ih hrest, State.instrs_succ]

/-- The loop runs `runLength` instructions; fuel beyond the budget changes nothing. -/
theorem State.executeLoop_eq_afterRun (p : Params) {fuel : Nat} {s : State} (hf : s.cyc ≤ fuel) :
    State.executeLoop p fuel s = s.afterRun p := by
  have hlen := s.runLength_le p
  obtain ⟨extra, rfl⟩ : ∃ extra, fuel = s.runLength p + extra := Nat.exists_eq_add_of_le (by omega)
  rw [State.executeLoop_add extra (s.budgetFor_runLength p)]
  exact State.executeLoop_exhausted p extra (s.afterRun_exhausted p)

theorem State.executeWhole_eq_afterRun (p : Params) (budget : Int) (s : State) :
    s.executeWhole p budget = ((s.enterExecute budget).afterRun p).leaveExecute := by
  rw [State.executeWhole, State.executeLoop_eq_afterRun p (Int.self_le_toNat budget)]

/-! ### The steps of a running core -/

theorem stepsWith_add {p : Params} {n : Nat} (k : Nat) {s : State} (hr : s.run = .running) (h : s.BudgetFor p n) :
    stepsWith p (n + k) s = stepsWith p k (s.instrs p n) := by
  induction n generalizing s with
  | zero => rw [Nat.zero_add, State.instrs_zero]
  | succ n ih =>
    obtain ⟨hc, hrest⟩ := (s.budgetFor_succ p n).mp h
    rw [Nat.succ_add, stepsWith_succ _ (stepWith_stepInstr hr hc), ih (by rw [s.stepInstr_run, hr]) hrest,
      State.instrs_succ]

theorem stepsWith_instrs {p : Params} {n : Nat} {s : State} (hr : s.run = .running) (h : s.BudgetFor p n) :
    stepsWith p n s = .next (s.instrs p n) :=
  stepsWith_add 0 hr h

/-- One step more than the run is long, and the core has returned. -/
theorem stepsWith_runLength_succ (p : Params) {s : State} (hr : s.run = .running) :
    stepsWith p (s.runLength p + 1) s = .next (s.afterRun p).leaveExecute := by
  rw [stepsWith_add 1 hr (s.budgetFor_runLength p)]
  exact stepsWith_succ 0 (stepWith_exhausted p (s.afterRun p) (by rw [s.afterRun_run, hr]) (s.afterRun_exhausted p))

/-- The step of entry (R75). -/
theorem stepsWith_execute {p : Params} (k : Nat) {s : State} {budget : Int} {rest : List Transaction} (hr : s.run = .idle)
    (hs : s.host.script = .execute budget :: rest) (hb : budget ≤ p.cycMax) :
    stepsWith p (k + 1) s = stepsWith p k ((s.withScript rest).enterExecute budget) :=
  stepsWith_succ k (stepWith_execute hr hs hb)

/-- Settles O30: the entry, as many instructions as the loop makes, and the return. -/
theorem executeIsTheLoop : Obligations.ExecuteIsTheLoop := by
  unfold Obligations.ExecuteIsTheLoop
  intro p s budget rest hr hs hb
  have hlen := ((s.withScript rest).enterExecute budget).runLength_le p
  refine ⟨((s.withScript rest).enterExecute budget).runLength p + 2, Nat.add_le_add_right hlen 2, ?_⟩
  rw [stepsWith_execute _ hr hs hb, stepsWith_runLength_succ p rfl, State.executeWhole_eq_afterRun]

/-- Settles O31: `n` is the length of the run from the state of entry. -/
theorem executeTerminates : Obligations.ExecuteTerminates := by
  unfold Obligations.ExecuteTerminates
  intro p s budget rest hr hs hpos hb
  obtain ⟨e, he⟩ : ∃ e, e = (s.withScript rest).enterExecute budget := ⟨_, rfl⟩
  have hrun : e.run = .running := by rw [he]; rfl
  have hcyc : e.cyc = budget := by rw [he]; rfl
  have hscript : e.host.script = rest := by rw [he]; rfl
  have hsteps : ∀ k, stepsWith p (k + 1) s = stepsWith p k e := fun k => he ▸ stepsWith_execute k hr hs hb
  have hle := e.runLength_le p
  have hge := e.cyc_le_runLength p
  refine ⟨e.runLength p, by omega, by omega, ?inRun, ?exhausted, ?returned⟩
  case inRun =>
    intro j hj hjn
    obtain ⟨i, rfl⟩ : ∃ i, j = i + 1 := ⟨j - 1, by omega⟩
    have hbudget : e.BudgetFor p i := fun m hm => e.budgetFor_runLength p m (by omega)
    exact ⟨e.instrs p i, (hsteps i).trans (stepsWith_instrs hrun hbudget), by rw [e.instrs_run, hrun],
      e.budgetFor_runLength p i (by omega)⟩
  case exhausted =>
    exact ⟨e.afterRun p, (hsteps _).trans (stepsWith_instrs hrun (e.budgetFor_runLength p)),
      by rw [e.afterRun_run, hrun], e.afterRun_exhausted p⟩
  case returned =>
    exact ⟨(e.afterRun p).leaveExecute, (hsteps _).trans (stepsWith_runLength_succ p hrun), rfl,
      by rw [State.leaveExecute_host, e.afterRun_host, hscript], e.neg_three_le_afterRun p (by omega),
      e.afterRun_exhausted p⟩

/-- Settles O35: the run has no instruction in it. -/
theorem executeOfNothing : Obligations.ExecuteOfNothing := by
  unfold Obligations.ExecuteOfNothing
  intro p s budget rest hr hs hb
  have hmax : 0 ≤ p.cycMax := by
    have : (0 : Int) < 2 ^ (p.cycW - 1) := by positivity
    unfold Params.cycMax
    omega
  have hidle : ((s.withScript rest).enterExecute budget).leaveExecute = { s.withScript rest with cyc := budget } := by
    simp [State.leaveExecute, State.enterExecute, State.withScript, hr]
  rw [stepsWith_execute 1 hr hs (hb.trans hmax), stepsWith_succ 0 (stepWith_exhausted p _ rfl hb), hidle]
  rfl

end Sys2Proof.Machine
end

section
/-! PROOFS. A budget may be split where the first part is used up exactly (40_fetch_execute.md R84): what an instruction
does, beyond lowering the counter, does not depend on the counter. -/

namespace Sys2Proof.Machine

/-- The same state with `k` units more in the counter. -/
def State.addBudget (k : Int) (s : State) : State := { s with cyc := s.cyc + k }

@[simp] theorem State.addBudget_cyc (k : Int) (s : State) : (s.addBudget k).cyc = s.cyc + k := rfl

theorem State.addBudget_charge (k : Int) (s : State) : (s.addBudget k).charge = s.charge.addBudget k := by
  simp [State.charge, State.addBudget, sub_add_eq_add_sub]

theorem State.addBudget_passByte (k : Int) (s : State) : (s.addBudget k).passByte = s.passByte.addBudget k :=
  s.pcIncrement.addBudget_charge k

theorem State.addBudget_loadAFrom (k : Int) (s : State) (ea : Word) :
    (s.addBudget k).loadAFrom ea = (s.loadAFrom ea).addBudget k :=
  congrArg (State.loadA · (s.memRead ea)) (s.addBudget_charge k)

/-- No instruction reads the counter (40_fetch_execute.md R76: the loop test alone does). -/
theorem exec_addBudget {i : Instr} {s t : State} (k : Int) (h : exec i s = .next t) :
    exec i (s.addBudget k) = .next (t.addBudget k) := by
  cases i with
  | ldaIm m => cases h; rw [exec_ldaIm, State.addBudget_passByte, State.addBudget_passByte]; rfl
  | ldaZp m => cases h; rw [exec_ldaZp, State.addBudget_passByte, State.addBudget_passByte, State.addBudget_loadAFrom]
  | ldaZpx m =>
    cases h
    rw [exec_ldaZpx, State.addBudget_passByte, State.addBudget_passByte, State.addBudget_charge,
      State.addBudget_loadAFrom]
    rfl
  | unk op => cases h; rw [exec_unk, State.addBudget_passByte]; rfl

theorem State.stepInstr_addBudget (p : Params) (k : Int) (s : State) :
    (s.addBudget k).stepInstr p = (s.stepInstr p).addBudget k :=
  State.stepInstr_eq_of_exec (i := s.instrAtPc p) rfl (exec_addBudget k (exec_instrAtPc p s))

theorem State.instrs_addBudget (p : Params) (k : Int) (n : Nat) (s : State) :
    (s.addBudget k).instrs p n = (s.instrs p n).addBudget k := by
  induction n generalizing s with
  | zero => rfl
  | succ n ih => rw [State.instrs_succ, State.stepInstr_addBudget, ih, State.instrs_succ]

theorem State.BudgetFor.addBudget {p : Params} {n : Nat} {s : State} (h : s.BudgetFor p n) {k : Int} (hk : 0 ≤ k) :
    (s.addBudget k).BudgetFor p n := by
  intro j hj
  have hbudget := h j hj
  rw [s.instrs_addBudget, State.addBudget_cyc]
  omega

/-- Giving `k` units more at the start is going on with `k` units more where the first budget ran out. -/
theorem State.afterRun_addBudget (p : Params) {k : Int} (hk : 0 ≤ k) (s : State) :
    (s.addBudget k).afterRun p = ((s.afterRun p).addBudget k).afterRun p := by
  have hfuel : s.cyc + k ≤ (s.cyc + k).toNat := Int.self_le_toNat _
  obtain ⟨-, hend⟩ : _ ∧ (s.afterRun p).cyc ≤ s.cyc - s.runLength p := s.instrs_cyc_bounds p (s.runLength p)
  calc (s.addBudget k).afterRun p
      = State.executeLoop p (s.runLength p + (s.cyc + k).toNat) (s.addBudget k) :=
        (State.executeLoop_eq_afterRun p (by rw [State.addBudget_cyc]; omega)).symm
    _ = State.executeLoop p (s.cyc + k).toNat ((s.addBudget k).instrs p (s.runLength p)) :=
        State.executeLoop_add _ ((s.budgetFor_runLength p).addBudget hk)
    _ = State.executeLoop p (s.cyc + k).toNat ((s.afterRun p).addBudget k) := by
        rw [State.instrs_addBudget, State.afterRun]
    _ = ((s.afterRun p).addBudget k).afterRun p :=
        State.executeLoop_eq_afterRun p (by rw [State.addBudget_cyc]; omega)

/-- Return with an empty counter, then entry with budget `k`: the run goes on with `k` units. -/
theorem State.enterExecute_leaveExecute {s : State} (k : Int) (hr : s.run = .running) (hc : s.cyc = 0) :
    s.leaveExecute.enterExecute k = s.addBudget k := by
  simp [State.leaveExecute, State.enterExecute, State.addBudget, hr, hc]

/-- Settles O32: by `afterRun_addBudget`, as entry with the sum is entry with the first budget and the second on top. -/
theorem splitExecute : Obligations.SplitExecute := by
  unfold Obligations.SplitExecute
  intro p s b₁ b₂ hb hzero
  rw [State.executeWhole_eq_afterRun, State.leaveExecute_cyc] at hzero
  have hsum : s.enterExecute (b₁ + b₂) = (s.enterExecute b₁).addBudget b₂ := rfl
  rw [State.executeWhole_eq_afterRun p b₁, State.executeWhole_eq_afterRun p b₂,
    State.executeWhole_eq_afterRun p (b₁ + b₂), hsum, State.afterRun_addBudget p hb,
    State.enterExecute_leaveExecute b₂ (State.afterRun_run p _) hzero]

end Sys2Proof.Machine
end

section
/-! PROOFS. An `Execute` of a single load (40_fetch_execute.md R76, R83; 41_load_accumulator.md R86 to R89). -/

namespace Sys2Proof.Machine

/-! ### The load whose bytes stand at PC -/

theorem State.instrAtPc_ldaIm {p : Params} {s : State} (hop : s.memRead s.pc = p.opcLdaIm) :
    s.instrAtPc p = .ldaIm (s.memRead (s.pc + 1)) :=
  instrOfBytes_ldaIm (hop ▸ decodeOpcode_opcLdaIm p) _

theorem State.instrAtPc_ldaZp {p : Params} (hp : p.Ok) {s : State} (hop : s.memRead s.pc = p.opcLdaZp) :
    s.instrAtPc p = .ldaZp (s.memRead (s.pc + 1)) :=
  instrOfBytes_ldaZp (hop ▸ decodeOpcode_opcLdaZp p hp) _

theorem State.instrAtPc_ldaZpx {p : Params} (hp : p.Ok) {s : State} (hop : s.memRead s.pc = p.opcLdaZpx) :
    s.instrAtPc p = .ldaZpx (s.memRead (s.pc + 1)) :=
  instrOfBytes_ldaZpx (hop ▸ decodeOpcode_opcLdaZpx p hp) _

/-! ### The effective addresses by value (41_load_accumulator.md R89) -/

theorem eaZeroPage_eq (m : Byte) : eaZeroPage m = BitVec.ofNat 16 m.toNat :=
  (BitVec.ofNat_toNat 16 m).symm

theorem eaZeroPageX_eq (m x : Byte) : eaZeroPageX m x = BitVec.ofNat 16 ((m.toNat + x.toNat) % 256) := by
  rw [← indexSum_toNat]
  exact eaZeroPage_eq (indexSum m x)

/-! ### One instruction and no more -/

/-- From a budget that one instruction uses up, `Execute` is that instruction. -/
theorem State.executeWhole_one {p : Params} {s t : State} {budget : Int} (hpos : 1 ≤ budget)
    (hcost : budget ≤ instrCost (s.instrAtPc p)) (h : exec (s.instrAtPc p) (s.enterExecute budget) = .next t) :
    s.executeWhole p budget = t.leaveExecute := by
  have hcyc : t.cyc = budget - instrCost (s.instrAtPc p) := exec_cyc h
  have hstep : (s.enterExecute budget).stepInstr p = t := State.stepInstr_eq_of_exec rfl h
  obtain ⟨fuel, hfuel⟩ : ∃ fuel, budget.toNat = fuel + 1 := ⟨budget.toNat - 1, by omega⟩
  rw [State.executeWhole, hfuel, State.executeLoop, if_pos (by rw [State.enterExecute_cyc]; omega), hstep,
    State.executeLoop_exhausted p fuel (by omega)]

/-- What every `Execute` of one load leaves; the datum is what the load puts in A. -/
theorem State.executeWhole_load {p : Params} {s t : State} {i : Instr} {budget : Int} (hi : s.instrAtPc p = i)
    (hlen : i.length = 2) (hpos : 1 ≤ budget) (hcost : budget ≤ instrCost i)
    (h : exec i (s.enterExecute budget) = .next t) :
    (s.executeWhole p budget).a = t.a ∧ (s.executeWhole p budget).pc = s.pc + 2 ∧
      (s.executeWhole p budget).cyc = budget - instrCost i := by
  subst hi
  have hpc := exec_pc h
  rw [hlen] at hpc
  rw [State.executeWhole_one hpos hcost h]
  exact ⟨rfl, hpc, exec_cyc h⟩

/-- Settles O33: `executeWhole_load` for each of the three, with the effective address by value. -/
theorem executeOfOneLoad : Obligations.ExecuteOfOneLoad := by
  unfold Obligations.ExecuteOfOneLoad
  rintro p hp s budget m hpos rfl
  refine ⟨fun hop hb => ?ldaIm, fun hop hb => ?ldaZp, fun hop hb => ?ldaZpx⟩
  case ldaIm => exact State.executeWhole_load (State.instrAtPc_ldaIm hop) rfl hpos hb rfl
  case ldaZp =>
    rw [← eaZeroPage_eq]
    exact State.executeWhole_load (State.instrAtPc_ldaZp hp hop) rfl hpos hb rfl
  case ldaZpx =>
    rw [← eaZeroPageX_eq]
    exact State.executeWhole_load (State.instrAtPc_ldaZpx hp hop) rfl hpos hb rfl

end Sys2Proof.Machine
end

section
/-! PROOFS. The three loads (41_load_accumulator.md R85 to R90) are one operation: A takes a datum, Z and N describe it, and
PC and CYC move by a fixed amount. They differ in the datum and in the cost alone. -/

namespace Sys2Proof.Machine

/-! ### What every load leaves -/

/-- `s` after a load of `v` that costs `cost` units. -/
def State.afterLoad (s : State) (v : Byte) (cost : Int) : State :=
  { s with a := v, fZ := decide (v = 0x00), fN := v.getLsbD 7, pc := s.pc + 2, cyc := s.cyc - cost }

/-- The byte in A after an instruction: the datum of the addressing mode (R89); an unknown opcode leaves A. -/
def State.datum (s : State) : Instr → Byte
  | .ldaIm m => m
  | .ldaZp m => s.memRead (eaZeroPage m)
  | .ldaZpx m => s.memRead (eaZeroPageX m s.x)
  | .unk _ => s.a

@[simp] theorem State.afterLoad_pc (s : State) (v : Byte) (cost : Int) : (s.afterLoad v cost).pc = s.pc + 2 := rfl

@[simp] theorem State.afterLoad_cyc (s : State) (v : Byte) (cost : Int) : (s.afterLoad v cost).cyc = s.cyc - cost := rfl

/-- `SetZN` with N as bit 7 (R85). -/
theorem State.setZN_eq (s : State) : s.setZN = { s with fZ := decide (s.a = 0x00), fN := s.a.getLsbD 7 } := by
  rw [State.setZN, BitVec.msb_eq_getLsbD_last]
  rfl

theorem State.loadA_passByte_passByte (s : State) (v : Byte) : s.passByte.passByte.loadA v = s.afterLoad v 2 := by
  rw [State.passByte_passByte_eq, State.loadA, State.setZN_eq]
  rfl

theorem State.loadA_charge (s : State) (v : Byte) : s.charge.loadA v = (s.loadA v).charge := rfl

theorem State.charge_afterLoad (s : State) (v : Byte) (cost : Int) :
    (s.afterLoad v cost).charge = s.afterLoad v (cost + 1) := by
  simp [State.charge, State.afterLoad, Int.sub_sub]

theorem exec_ldaIm_eq (m : Byte) (s : State) : exec (.ldaIm m) s = .next (s.afterLoad m 2) := by
  rw [exec_ldaIm, State.loadA_passByte_passByte]

theorem exec_ldaZp_eq (m : Byte) (s : State) :
    exec (.ldaZp m) s = .next (s.afterLoad (s.memRead (eaZeroPage m)) 3) := by
  simp [State.loadAFrom, State.loadA_charge, State.loadA_passByte_passByte, State.charge_afterLoad]

theorem exec_ldaZpx_eq (m : Byte) (s : State) :
    exec (.ldaZpx m) s = .next (s.afterLoad (s.memRead (eaZeroPageX m s.x)) 4) := by
  simp [State.loadAFrom, State.loadA_charge, State.loadA_passByte_passByte, State.charge_afterLoad]

/-- What a load answers, whichever it is. -/
theorem exec_load {i : Instr} (hi : i.selection ≠ .unk) (s : State) :
    exec i s = .next (s.afterLoad (s.datum i) (instrCost i)) := by
  cases i with
  | ldaIm m => exact exec_ldaIm_eq m s
  | ldaZp m => exact exec_ldaZp_eq m s
  | ldaZpx m => exact exec_ldaZpx_eq m s
  | unk op => exact absurd rfl hi

/-- The datum of a load depends on X and memory alone (R90). -/
theorem State.datum_congr {s₁ s₂ : State} {i : Instr} (hi : i.selection ≠ .unk) (hx : s₁.x = s₂.x)
    (hmem : ∀ addr : Word, s₁.memRead addr = s₂.memRead addr) : s₁.datum i = s₂.datum i := by
  cases i with
  | ldaIm m => rfl
  | ldaZp m => exact hmem _
  | ldaZpx m => rw [State.datum, State.datum, hx, hmem]
  | unk op => exact absurd rfl hi

/-! ### The loads one by one -/

/-- A step is the instruction at PC. -/
theorem stepWith_of_instrAtPc {p : Params} {s : State} {i : Instr} (hr : s.run = .running) (hc : 0 < s.cyc)
    (hi : s.instrAtPc p = i) : stepWith p s = exec i s :=
  hi ▸ stepWith_running p s hr hc

/-- Settles O16. -/
theorem ldaImLoadsItsOperand : Obligations.LdaImLoadsItsOperand := by
  unfold Obligations.LdaImLoadsItsOperand
  intro m s
  refine ⟨exec_ldaIm_eq m s, fun p _ hr hc hop hm => ?_⟩
  have hi : s.instrAtPc p = .ldaIm m := hm ▸ State.instrAtPc_ldaIm hop
  exact (stepWith_of_instrAtPc hr hc hi).trans (exec_ldaIm_eq m s)

/-- Settles O17, the effective address taken by value. -/
theorem ldaZpLoadsFromPageZero : Obligations.LdaZpLoadsFromPageZero := by
  unfold Obligations.LdaZpLoadsFromPageZero
  rintro m s v rfl
  rw [← eaZeroPage_eq]
  refine ⟨exec_ldaZp_eq m s, fun p hp hr hc hop hm => ?_⟩
  have hi : s.instrAtPc p = .ldaZp m := hm ▸ State.instrAtPc_ldaZp hp hop
  exact (stepWith_of_instrAtPc hr hc hi).trans (exec_ldaZp_eq m s)

/-- Settles O18, the effective address taken by value. -/
theorem ldaZpxWrapsInPageZero : Obligations.LdaZpxWrapsInPageZero := by
  unfold Obligations.LdaZpxWrapsInPageZero
  rintro m s v rfl
  rw [← eaZeroPageX_eq]
  refine ⟨exec_ldaZpx_eq m s, fun p hp hr hc hop hm => ?_⟩
  have hi : s.instrAtPc p = .ldaZpx m := hm ▸ State.instrAtPc_ldaZpx hp hop
  exact (stepWith_of_instrAtPc hr hc hi).trans (exec_ldaZpx_eq m s)

/-! ### What holds of every load -/

/-- Settles O21: a load ends in `afterLoad`, and an unknown opcode's report touches no flag. -/
theorem zeroAndNegativeDescribeA : Obligations.ZeroAndNegativeDescribeA := by
  unfold Obligations.ZeroAndNegativeDescribeA
  refine ⟨State.setZN_eq, fun i s hi => ?load, fun op s => ?unk⟩
  case load => exact ⟨_, exec_load hi s, rfl, rfl, rfl, rfl, rfl, rfl, rfl⟩
  case unk => exact ⟨_, exec_unk op s, rfl, rfl⟩

/-- Settles O23: `exec_frame`, and a load adds no diagnostic. -/
theorem loadsFrame : Obligations.LoadsFrame := by
  unfold Obligations.LoadsFrame
  intro i s t hi h
  obtain ⟨⟨hsp, hx, hy, hC, hI, hD, hB, hV, hmem⟩, hrun, hhost⟩ := exec_frame h
  have hdiag : t.diag = s.diag := by
    rw [exec_load hi] at h
    cases h
    rfl
  exact ⟨hsp, hx, hy, hC, hI, hD, hB, hV, hrun, hdiag, hhost, hmem⟩

/-- Settles O25: both runs end in `afterLoad`, with the same datum and at the same cost. -/
theorem loadsReadOnlyPcXAndMemory : Obligations.LoadsReadOnlyPcXAndMemory := by
  unfold Obligations.LoadsReadOnlyPcXAndMemory
  intro i s₁ s₂ hi hpc hx hmem
  have h₁ := exec_load hi s₁
  have h₂ := exec_load hi s₂
  rw [← State.datum_congr hi hx hmem] at h₂
  obtain ⟨hframe, -⟩ := exec_frame h₁
  refine ⟨_, _, h₁, h₂, rfl, rfl, rfl, rfl, rfl, rfl, ?pc, ?cost, rfl, hframe⟩
  case pc => rw [State.afterLoad_pc, hpc]
  case cost => rw [State.afterLoad_cyc, State.afterLoad_cyc]; omega

/-- Settles O22: the addresses by value, then the datum and the cost of each load. -/
theorem addressingModes : Obligations.AddressingModes := by
  unfold Obligations.AddressingModes
  refine ⟨zext16_toNat, fun m x => ?indexed, fun m s => ⟨?ldaIm, ?ldaZp, ?ldaZpx⟩⟩
  case indexed => rw [eaZeroPageX, zext16_toNat, indexSum_toNat]
  case ldaIm => exact ⟨_, exec_ldaIm_eq m s, rfl, rfl, by rw [State.afterLoad_cyc]; omega⟩
  case ldaZp => exact ⟨_, exec_ldaZp_eq m s, rfl, rfl, by rw [State.afterLoad_cyc]; omega⟩
  case ldaZpx => exact ⟨_, exec_ldaZpx_eq m s, rfl, rfl, by rw [State.afterLoad_cyc]; omega⟩

end Sys2Proof.Machine
end

section
/-! PROOFS. The host's reads and writes of a waiting core (42_blocks_and_host_interface.md R105 to R107). -/

namespace Sys2Proof.Machine

/-! ### HostReadReg after HostWriteReg, of the same name and of another -/

/-- The name that was written answers what was written, every other name what it answered before. -/
theorem State.readReg_writeReg (s : State) (rv : RegValue) (r : RegName) :
    (s.writeReg rv).readReg r = if r = rv.name then rv else s.readReg r := by
  cases rv with
  | wide w v =>
    cases r with
    | wide w' => cases w <;> cases w' <;> rfl
    | narrow b => cases w <;> cases b <;> rfl
    | flag f => cases w <;> cases f <;> rfl
  | narrow b v =>
    cases r with
    | wide w => cases b <;> cases w <;> rfl
    | narrow b' => cases b <;> cases b' <;> rfl
    | flag f => cases b <;> cases f <;> rfl
  | flag f v =>
    cases r with
    | wide w => cases f <;> cases w <;> rfl
    | narrow b => cases f <;> cases b <;> rfl
    | flag g => cases f <;> cases g <;> rfl

theorem State.readReg_writeReg_same (s : State) (rv : RegValue) : (s.writeReg rv).readReg rv.name = rv := by
  rw [State.readReg_writeReg, if_pos rfl]

theorem State.readReg_writeReg_other (s : State) {rv : RegValue} {r : RegName} (h : r ≠ rv.name) :
    (s.writeReg rv).readReg r = s.readReg r := by
  rw [State.readReg_writeReg, if_neg h]

/-- Taking a transaction off the script touches no register and no flag. -/
@[simp] theorem State.readReg_withScript (s : State) (rest : List Transaction) (r : RegName) :
    (s.withScript rest).readReg r = s.readReg r := by
  cases r with
  | wide w => cases w <;> rfl
  | narrow b => cases b <;> rfl
  | flag f => exact congrArg (RegValue.flag f) (s.flag_withScript rest f)

/-! ### The steps -/

section
variable {p : Params} {s : State} {rest : List Transaction} (hr : s.run = .idle)
include hr

theorem stepWith_writeReg {rv : RegValue} (hs : s.host.script = .writeReg rv :: rest) :
    stepWith p s = .next ((s.withScript rest).writeReg rv) :=
  stepWith_idle hr hs

theorem stepWith_readMem {addr : Word} (hs : s.host.script = .readMem addr :: rest) :
    stepWith p s = .next ((s.withScript rest).reply (.byte addr (s.memRead addr))) :=
  stepWith_idle hr hs

theorem stepWith_readReg {r : RegName} (hs : s.host.script = .readReg r :: rest) :
    stepWith p s = .next ((s.withScript rest).reply (.reg (s.readReg r))) := by
  rw [stepWith_idle hr hs, State.perform, State.readReg_withScript]

end

/-- Settles O44: the step is a `MemWrite`, and a write is read back at its own address alone. -/
theorem hostWriteMemStoresOneByte : Obligations.HostWriteMemStoresOneByte := by
  unfold Obligations.HostWriteMemStoresOneByte
  intro p s addr v rest hw hr hs
  exact ⟨_, stepWith_writeMem hr hs, (s.withScript rest).memRead_memWrite_same addr v hw,
    fun _ => (s.withScript rest).memRead_memWrite_other v, rfl⟩

/-- Settles O45: the step is a write by name, read back under that name alone; `writeReg_rest` has what is no register. -/
theorem hostWriteRegSetsOneRegister : Obligations.HostWriteRegSetsOneRegister := by
  unfold Obligations.HostWriteRegSetsOneRegister
  intro p s rv rest hr hs
  obtain ⟨hcyc, hrun, hmem, hdiag, hhost⟩ := (s.withScript rest).writeReg_rest rv
  refine ⟨_, stepWith_writeReg hr hs, State.readReg_writeReg_same _ rv, fun r hother => ?others, hcyc, hrun, hdiag, hhost,
    State.memRead_congr hmem⟩
  case others => rw [State.readReg_writeReg_other _ hother, State.readReg_withScript]

/-- Settles O46: each read is a reply and no more; what the twelve names stand for is `readReg` itself. -/
theorem hostReadsAnswerTheCurrentValue : Obligations.HostReadsAnswerTheCurrentValue := by
  unfold Obligations.HostReadsAnswerTheCurrentValue
  intro p s rest hr
  exact ⟨fun _ => stepWith_readMem hr, fun _ => stepWith_readReg hr, rfl, rfl, rfl, rfl, rfl, rfl, rfl, rfl, rfl, rfl, rfl,
    rfl⟩

end Sys2Proof.Machine
end

section
/-! PROOFS. The unknown opcode (60_exceptions.md R115 to R118): a report, after which the run goes on at the next byte. -/

namespace Sys2Proof.Machine

/-! ### What an unknown opcode answers -/

/-- One `FetchByte` and one event (R115, R118). -/
theorem State.raiseUnknownOpcode_passByte_eq (s : State) (op : Byte) (opaddr : Word) :
    s.passByte.raiseUnknownOpcode op opaddr =
      { s with pc := s.pc + 1, cyc := s.cyc - 1, diag := s.diag ++ [.unknownOpcode op opaddr] } := by
  rw [State.raiseUnknownOpcode_eq, State.passByte_eq]

theorem stepWith_unk {p : Params} {s : State} (hr : s.run = .running) (hc : 0 < s.cyc)
    (h : decodeOpcode p (s.memRead s.pc) = .unk) :
    stepWith p s = .next (s.passByte.raiseUnknownOpcode (s.memRead s.pc) s.pc) := by
  rw [stepWith_stepInstr hr hc, State.stepInstr_unk h]

/-- Settles O19: a byte that no handler is bound to decodes to an unknown opcode. -/
theorem unkReportsAndGoesOn : Obligations.UnkReportsAndGoesOn := by
  unfold Obligations.UnkReportsAndGoesOn
  intro op s
  rw [exec_unk, ← State.raiseUnknownOpcode_passByte_eq]
  refine ⟨rfl, ?step⟩
  case step =>
    rintro p hr hc rfl him hzp hzpx
    exact stepWith_unk hr hc ((decodeOpcode_eq_unk_iff_ne p _).mpr ⟨him, hzp, hzpx⟩)

/-- Settles O24: `exec_frame`, and the report touches neither A nor the two flags that describe it. -/
theorem unkFrame : Obligations.UnkFrame := by
  unfold Obligations.UnkFrame
  intro op s t h
  obtain ⟨⟨hsp, hx, hy, hC, hI, hD, hB, hV, hmem⟩, hrun, hhost⟩ := exec_frame h
  have hAZN : t.a = s.a ∧ t.fZ = s.fZ ∧ t.fN = s.fN := by
    rw [exec_unk] at h
    cases h
    exact ⟨rfl, rfl, rfl⟩
  obtain ⟨ha, hZ, hN⟩ := hAZN
  exact ⟨ha, hx, hy, hsp, hC, hZ, hI, hD, hB, hV, hN, hrun, hhost, hmem⟩

/-! ### The next instruction -/

/-- Past one byte, the instruction at PC is read from the two bytes after it. -/
theorem State.instrAtPc_passByte (p : Params) (s : State) :
    s.passByte.instrAtPc p = instrOfBytes p (s.memRead (s.pc + 1)) (s.memRead (s.pc + 2)) := by
  have hpc : s.pc + 1 + 1 = s.pc + 2 := by rw [BitVec.add_assoc]; rfl
  rw [State.instrAtPc, State.passByte_pc, State.passByte_memRead, State.passByte_memRead, hpc]

/-- A diagnostic is not read by the decoder. -/
@[simp] theorem State.instrAtPc_raiseUnknownOpcode (p : Params) (s : State) (op : Byte) (opaddr : Word) :
    (s.raiseUnknownOpcode op opaddr).instrAtPc p = s.instrAtPc p := rfl

/-- Settles O20: the state after the report is running with one unit less, so the next step is an ordinary instruction,
read from the byte after the unknown opcode. -/
theorem unkNeverEndsTheRun : Obligations.UnkNeverEndsTheRun := by
  unfold Obligations.UnkNeverEndsTheRun
  intro p s hr hc hunk
  refine ⟨_, stepWith_unk hr hc hunk, hr, rfl, by simp, fun hleft => ?next⟩
  case next =>
    have hc' : 0 < s.cyc - 1 := by omega
    refine ⟨?instr, _, stepWith_stepInstr hr hc'⟩
    case instr =>
      refine stepWith_of_instrAtPc hr hc' ?_
      rw [State.instrAtPc_raiseUnknownOpcode, State.instrAtPc_passByte]

end Sys2Proof.Machine
end

section
/-! PROOFS. `Reset` (70_reset_and_hazards.md R135, R136, R138): the state it leaves, whatever the machine
held before. -/

namespace Sys2Proof.Machine

/-! ### What `Reset` leaves -/

@[simp] theorem State.resetMachine_host (p : Params) (s : State) : (s.resetMachine p).host = s.host := rfl

@[simp] theorem State.resetMachine_flag (p : Params) (s : State) (f : Flag) : (s.resetMachine p).flag f = false := by
  cases f <;> rfl

@[simp] theorem State.resetMachine_memRead (p : Params) (s : State) (addr : Word) :
    (s.resetMachine p).memRead addr = 0x00 := by
  rw [State.memRead, State.resetMachine_mem, Memory.read_nil, Memory.unlisted]

/-- `Reset` reads nothing but the host's own part, which it hands on (R136). -/
theorem State.resetMachine_congr (p : Params) {s t : State} (h : s.host = t.host) :
    s.resetMachine p = t.resetMachine p := by
  rw [State.resetMachine_eq, State.resetMachine_eq, h]

/-- Settles O41: the step is `resetMachine`, whose counter is a value of `CYC_W` bits. -/
theorem resetLeavesTheResetState : Obligations.ResetLeavesTheResetState := by
  unfold Obligations.ResetLeavesTheResetState
  intro p hp s rest hr hs
  have hnot : s.run ≠ .running := by rcases hr with hr | hr <;> simp [hr]
  exact ⟨_, stepWith_reset hnot hs, rfl, rfl, rfl, rfl, rfl, State.resetMachine_flag p _, State.resetMachine_memRead p _,
    rfl, rfl, State.resetMachine_cycFits hp _, rfl⟩

/-- Settles O42: once and twice start from the same host, so `resetMachine_congr` gives both equalities. -/
theorem resetIsIdempotent : Obligations.ResetIsIdempotent := by
  unfold Obligations.ResetIsIdempotent
  exact fun p s₁ s₂ => ⟨State.resetMachine_congr p (s₁.resetMachine_host p), State.resetMachine_congr p,
    s₁.resetMachine_memRead p⟩

/-! ### The invariants right after reset -/

/-- Settles O38: memory is empty, the core is idle, a counter of any admitted width holds 0, and the script is empty. -/
theorem resetMeetsInv : Obligations.ResetMeetsInv := by
  unfold Obligations.ResetMeetsInv
  intro p hp
  have hcyc : State.reset.cyc = 0 := rfl
  have hrange := Params.cyc_range hp
  refine ⟨⟨State.reset_mem_wf, ?idle⟩, ⟨by omega, by omega⟩, ?script⟩
  case idle => exact fun hr => absurd hr (by decide)
  case script => exact fun b hb => absurd hb List.not_mem_nil

end Sys2Proof.Machine
end

section
/-! PROOFS. Who writes X, Y, SP, C, I, D, B and V (70_reset_and_hazards.md R145): `Reset`, and the host by name. -/

namespace Sys2Proof.Machine

/-- The registers and flags that R145 lists, which no instruction writes. -/
def hostOnlyRegs : List RegName :=
  [.wide .sp, .narrow .x, .narrow .y, .flag .c, .flag .i, .flag .d, .flag .b, .flag .v]

/-! ### Reading a register after an update that leaves the registers -/

/-- What a name answers depends on the registers and the flags alone. -/
theorem State.readReg_congr {s t : State} (hpc : t.pc = s.pc) (hsp : t.sp = s.sp) (ha : t.a = s.a) (hx : t.x = s.x)
    (hy : t.y = s.y) (hflag : ∀ f, t.flag f = s.flag f) (r : RegName) : t.readReg r = s.readReg r := by
  cases r with
  | wide w =>
    cases w with
    | pc => exact congrArg (RegValue.wide .pc) hpc
    | sp => exact congrArg (RegValue.wide .sp) hsp
  | narrow b =>
    cases b with
    | a => exact congrArg (RegValue.narrow .a) ha
    | x => exact congrArg (RegValue.narrow .x) hx
    | y => exact congrArg (RegValue.narrow .y) hy
  | flag f => exact congrArg (RegValue.flag f) (hflag f)

@[simp] theorem State.readReg_leaveExecute (s : State) (r : RegName) : s.leaveExecute.readReg r = s.readReg r :=
  State.readReg_congr rfl rfl rfl rfl rfl s.flag_leaveExecute r

@[simp] theorem State.readReg_enterExecute (s : State) (budget : Int) (r : RegName) :
    (s.enterExecute budget).readReg r = s.readReg r :=
  State.readReg_congr rfl rfl rfl rfl rfl (s.flag_enterExecute budget) r

@[simp] theorem State.readReg_memWrite (s : State) (addr : Word) (v : Byte) (r : RegName) :
    (s.memWrite addr v).readReg r = s.readReg r :=
  State.readReg_congr rfl rfl rfl rfl rfl (s.flag_memWrite addr v) r

@[simp] theorem State.readReg_reply (s : State) (y : Reply) (r : RegName) : (s.reply y).readReg r = s.readReg r :=
  State.readReg_congr rfl rfl rfl rfl rfl (s.flag_reply y) r

/-! ### What changes a register -/

/-- A transaction that changes what a name answers, whichever of the twelve, is `Reset` or the host's write of that name. -/
theorem State.transact_readReg_ne {p : Params} {x : Transaction} {s t : State} {r : RegName}
    (h : s.transact p x = .next t) (hne : t.readReg r ≠ s.readReg r) :
    x = .reset ∨ ∃ rv, rv.name = r ∧ x = .writeReg rv := by
  obtain ⟨rfl, -, -⟩ | ⟨-, hx⟩ := State.transact_cases h
  · exact .inl rfl
  · obtain ⟨addr, v, -, rfl⟩ | ⟨addr, -, rfl⟩ | ⟨rv, rfl, rfl⟩ | ⟨read, -, rfl⟩ | ⟨b, -, -, rfl⟩ := hx
    · exact absurd (s.readReg_memWrite addr v r) hne
    · exact absurd (s.readReg_reply _ r) hne
    · have hname : rv.name = r := by
        by_contra hother
        exact hne (s.readReg_writeReg_other (Ne.symm hother))
      exact .inr ⟨rv, hname, rfl⟩
    · exact absurd (s.readReg_reply _ r) hne
    · exact absurd (s.readReg_enterExecute b r) hne

theorem SameHostOnly.readReg {s t : State} (h : SameHostOnly s t) : ∀ r ∈ hostOnlyRegs, t.readReg r = s.readReg r := by
  obtain ⟨hsp, hx, hy, hC, hI, hD, hB, hV, -⟩ := h
  simp [hostOnlyRegs, State.readReg, State.flag, hsp, hx, hy, hC, hI, hD, hB, hV]

/-- Settles O39: an instruction leaves these registers (`exec_frame`) and the return of `Execute` leaves them all, so the
step is a transaction. -/
theorem registersNoInstructionWrites : Obligations.RegistersNoInstructionWrites := by
  unfold Obligations.RegistersNoInstructionWrites
  intro p s t h r hmem hne
  obtain ⟨-, -, he⟩ | ⟨-, -, rfl⟩ | ⟨-, -, rfl⟩ | ⟨hr, x, rest, hs, hx⟩ := stepWith_cases h
  · obtain ⟨hsame, -⟩ := exec_frame he
    exact absurd (hsame.readReg r hmem) hne
  · exact absurd (s.readReg_leaveExecute r) hne
  · exact absurd rfl hne
  · rw [← s.readReg_withScript rest r] at hne
    obtain rfl | ⟨rv, hname, rfl⟩ := State.transact_readReg_ne hx hne
    · exact ⟨hr, rest, .inl hs⟩
    · exact ⟨hr, rest, .inr ⟨rv, hname, hs⟩⟩

end Sys2Proof.Machine
end
